-- ==== Sys2Proof/Word.lean ====
section
/-! DEFINITION. Word types of the machine. All values are unsigned (spec 00_scope.md R9). -/

namespace Sys2Proof

/-- An 8-bit unsigned value: a general register, a timer, a memory byte (R19, R32, R43). -/
abbrev Byte := BitVec 8

/-- A 16-bit unsigned value: `I`, `pc`, a stack entry, an opcode (R22, R24, R29, R36). -/
abbrev Word := BitVec 16

/-- A 12-bit address field `nnn` (R63). -/
abbrev Addr12 := BitVec 12

/-- A number 0..15: a register number `x` or `y`, a key, or the row count `n` (R63, R64). -/
abbrev Nibble := Fin 16

end Sys2Proof
end

