-- ==== Sys2Proof/Syntax.lean ====
section
/-! DEFINITION. The 34 instructions (spec 30_encoding.md R83, R84), one constructor per row of spec/opcode_table.json, in
the table's order. Operand ranges are the types: registers and `n` 0..15, `kk` a byte, `nnn` 12 bits (R63, R64). -/

namespace Sys2Proof

/-- An instruction with its operand fields, named as R63 names them. -/
inductive Instr where
  /-- 00E0 CLS (R114). -/
  | cls
  /-- 00EE RET (R86). -/
  | ret
  /-- 1nnn JP addr (R87). -/
  | jp (nnn : Addr12)
  /-- 2nnn CALL addr (R88). -/
  | call (nnn : Addr12)
  /-- 3xkk SE Vx, byte (R89). -/
  | seByte (x : Nibble) (kk : Byte)
  /-- 4xkk SNE Vx, byte (R90). -/
  | sneByte (x : Nibble) (kk : Byte)
  /-- 5xy0 SE Vx, Vy (R91). -/
  | seReg (x y : Nibble)
  /-- 6xkk LD Vx, byte (R94). -/
  | ldByte (x : Nibble) (kk : Byte)
  /-- 7xkk ADD Vx, byte (R95). -/
  | addByte (x : Nibble) (kk : Byte)
  /-- 8xy0 LD Vx, Vy (R96). -/
  | ldReg (x y : Nibble)
  /-- 8xy1 OR Vx, Vy (R97). -/
  | orReg (x y : Nibble)
  /-- 8xy2 AND Vx, Vy (R98). -/
  | andReg (x y : Nibble)
  /-- 8xy3 XOR Vx, Vy (R99). -/
  | xorReg (x y : Nibble)
  /-- 8xy4 ADD Vx, Vy (R100). -/
  | addReg (x y : Nibble)
  /-- 8xy5 SUB Vx, Vy (R101). -/
  | sub (x y : Nibble)
  /-- 8xy6 SHR Vx; `y` is encoded but not read (R102). -/
  | shr (x y : Nibble)
  /-- 8xy7 SUBN Vx, Vy (R103). -/
  | subn (x y : Nibble)
  /-- 8xyE SHL Vx; `y` is encoded but not read (R104). -/
  | shl (x y : Nibble)
  /-- 9xy0 SNE Vx, Vy (R92). -/
  | sneReg (x y : Nibble)
  /-- Annn LD I, addr (R108). -/
  | ldI (nnn : Addr12)
  /-- Bnnn JP V0, addr (R93). -/
  | jpV0 (nnn : Addr12)
  /-- Cxkk RND Vx, byte (R105). -/
  | rnd (x : Nibble) (kk : Byte)
  /-- Dxyn DRW Vx, Vy, nibble (R115). -/
  | drw (x y n : Nibble)
  /-- Ex9E SKP Vx (R121). -/
  | skp (x : Nibble)
  /-- ExA1 SKNP Vx (R122). -/
  | sknp (x : Nibble)
  /-- Fx07 LD Vx, DT (R123). -/
  | ldVxDT (x : Nibble)
  /-- Fx0A LD Vx, K (R124). -/
  | ldVxK (x : Nibble)
  /-- Fx15 LD DT, Vx (R125). -/
  | ldDTVx (x : Nibble)
  /-- Fx18 LD ST, Vx (R126). -/
  | ldSTVx (x : Nibble)
  /-- Fx1E ADD I, Vx (R109). -/
  | addI (x : Nibble)
  /-- Fx29 LD F, Vx (R110). -/
  | ldF (x : Nibble)
  /-- Fx33 LD B, Vx (R111). -/
  | ldB (x : Nibble)
  /-- Fx55 LD [I], Vx (R112). -/
  | ldMemVx (x : Nibble)
  /-- Fx65 LD Vx, [I] (R113). -/
  | ldVxMem (x : Nibble)
  deriving DecidableEq, Repr

end Sys2Proof
end

