-- ==== Sys2Proof/WellFormed.lean ====
section
/-! DEFINITION. Well-formed program words. A term of `Instr` has no ill-formed form: its field types are exactly the operand
ranges of spec 30_encoding.md R63 and R64. What can be ill-formed is the WORD a program holds: R81 and R84 say which words an
assembler emits (the canonical patterns), and the checks below refuse every other word, alias or unmapped. The machine itself
never asks this: it runs aliases as R81 says. -/

namespace Sys2Proof

/-- Family 0x0 is canonical only as 00E0 and 00EE (R81, R84). -/
def canonicalFamily0 (w : Word) : Bool := w == 0x00E0 || w == 0x00EE

/-- 5xy0 and 9xy0 are canonical with low nibble 0 (R81, R84). -/
def canonicalXY (w : Word) : Bool := w &&& 0x000F == 0

/-- The mapped low nibbles of family 0x8 (R68). -/
def canonicalFamily8 (w : Word) : Bool :=
  [0x0, 0x1, 0x2, 0x3, 0x4, 0x5, 0x6, 0x7, 0xE].contains (w &&& 0x000F)

/-- Ex9E and ExA1 (R81, R84). -/
def canonicalFamilyE (w : Word) : Bool := [0x9E, 0xA1].contains (w &&& 0x00FF)

/-- The mapped low bytes of family 0xF (R70). -/
def canonicalFamilyF (w : Word) : Bool :=
  [0x07, 0x0A, 0x15, 0x18, 0x1E, 0x29, 0x33, 0x55, 0x65].contains (w &&& 0x00FF)

/-- The word is one an assembler emits: a canonical pattern of R84 (R81). -/
def canonicalWord (w : Word) : Bool :=
  match (w >>> 12).toNat with
  | 0x0 => canonicalFamily0 w
  | 0x5 => canonicalXY w
  | 0x8 => canonicalFamily8 w
  | 0x9 => canonicalXY w
  | 0xE => canonicalFamilyE w
  | 0xF => canonicalFamilyF w
  | _ => true

end Sys2Proof
end

