-- ==== Sys2Proof/Decode.lean ====
section
/-! DEFINITION. Fields, the two-level decoder of spec 30_encoding.md R66-R72 (total on any bytes, refusing by name), the
opcode table's rows (R84), and the encoder of the canonical words (R65, R84). -/

namespace Sys2Proof

/-! ## Byte order (20_memory.md R52) -/

/-- The byte at the lower address is the high byte of the opcode (R52). -/
def joinBytes (hi lo : Byte) : Word := hi ++ lo

/-- The byte a word has at its lower address (R52). -/
def highByte (w : Word) : Byte := w.extractLsb' 8 8

/-- The byte a word has at its higher address (R52). -/
def lowByte (w : Word) : Byte := w.extractLsb' 0 8

/-! ## Fields (R63) -/

/-- `op[15:12]`. -/
def opFamily (w : Word) : Nibble := (w.extractLsb' 12 4).toFin

/-- `x = op[11:8]`. -/
def opX (w : Word) : Nibble := (w.extractLsb' 8 4).toFin

/-- `y = op[7:4]`. -/
def opY (w : Word) : Nibble := (w.extractLsb' 4 4).toFin

/-- `n = op[3:0]`. -/
def opN (w : Word) : Nibble := (w.extractLsb' 0 4).toFin

/-- `kk = op[7:0]`. -/
def opKK (w : Word) : Byte := w.extractLsb' 0 8

/-- `nnn = op[11:0]`. -/
def opNNN (w : Word) : Addr12 := w.extractLsb' 0 12

/-! ## Decoding -/

/-- Why bytes are no instruction: the four error handlers of R66, one per family with a secondary table (the word with it),
or fewer than the two bytes R82 asks for. -/
inductive Reject where
  /-- Family 0x0, low nibble not 0x0 or 0xE (R67, R78). -/
  | unmapped0 (w : Word)
  /-- Family 0x8, low nibble 0x8-0xD or 0xF (R68, R78). -/
  | unmapped8 (w : Word)
  /-- Family 0xE, low nibble not 0x1 or 0xE (R69, R78). -/
  | unmappedE (w : Word)
  /-- Family 0xF, low byte not one of the nine of R70 (R78). -/
  | unmappedF (w : Word)
  /-- Fewer than two bytes (R82). -/
  | truncated
  deriving DecidableEq, Repr

/-- Family 0x0, on `op[3:0]`; `op[11:4]` is not examined (R67). -/
def decodeFamily0 (w : Word) : Except Reject Instr :=
  match (opN w).val with
  | 0x0 => .ok .cls
  | 0xE => .ok .ret
  | _ => .error (.unmapped0 w)

/-- Family 0x8, on `op[3:0]` (R68). -/
def decodeFamily8 (w : Word) : Except Reject Instr :=
  match (opN w).val with
  | 0x0 => .ok (.ldReg (opX w) (opY w))
  | 0x1 => .ok (.orReg (opX w) (opY w))
  | 0x2 => .ok (.andReg (opX w) (opY w))
  | 0x3 => .ok (.xorReg (opX w) (opY w))
  | 0x4 => .ok (.addReg (opX w) (opY w))
  | 0x5 => .ok (.sub (opX w) (opY w))
  | 0x6 => .ok (.shr (opX w) (opY w))
  | 0x7 => .ok (.subn (opX w) (opY w))
  | 0xE => .ok (.shl (opX w) (opY w))
  | _ => .error (.unmapped8 w)

/-- Family 0xE, on `op[3:0]`; `op[7:4]` is not examined (R69). -/
def decodeFamilyE (w : Word) : Except Reject Instr :=
  match (opN w).val with
  | 0x1 => .ok (.sknp (opX w))
  | 0xE => .ok (.skp (opX w))
  | _ => .error (.unmappedE w)

/-- Family 0xF, on `op[7:0]` (R70). -/
def decodeFamilyF (w : Word) : Except Reject Instr :=
  match (opKK w).toNat with
  | 0x07 => .ok (.ldVxDT (opX w))
  | 0x0A => .ok (.ldVxK (opX w))
  | 0x15 => .ok (.ldDTVx (opX w))
  | 0x18 => .ok (.ldSTVx (opX w))
  | 0x1E => .ok (.addI (opX w))
  | 0x29 => .ok (.ldF (opX w))
  | 0x33 => .ok (.ldB (opX w))
  | 0x55 => .ok (.ldMemVx (opX w))
  | 0x65 => .ok (.ldVxMem (opX w))
  | _ => .error (.unmappedF w)

/-- The complete decoder of R72, total on every word. The last arm is family 0xF, the one value left. -/
def decodeWord (w : Word) : Except Reject Instr :=
  match (opFamily w).val with
  | 0x0 => decodeFamily0 w
  | 0x1 => .ok (.jp (opNNN w))
  | 0x2 => .ok (.call (opNNN w))
  | 0x3 => .ok (.seByte (opX w) (opKK w))
  | 0x4 => .ok (.sneByte (opX w) (opKK w))
  | 0x5 => .ok (.seReg (opX w) (opY w))
  | 0x6 => .ok (.ldByte (opX w) (opKK w))
  | 0x7 => .ok (.addByte (opX w) (opKK w))
  | 0x8 => decodeFamily8 w
  | 0x9 => .ok (.sneReg (opX w) (opY w))
  | 0xA => .ok (.ldI (opNNN w))
  | 0xB => .ok (.jpV0 (opNNN w))
  | 0xC => .ok (.rnd (opX w) (opKK w))
  | 0xD => .ok (.drw (opX w) (opY w) (opN w))
  | 0xE => decodeFamilyE w
  | _ => decodeFamilyF w

/-- Decoding consumes exactly two bytes, big-endian (R52, R82), and hands back the rest. -/
def decodeBytes (bytes : List Byte) : Except Reject (Instr × List Byte) :=
  match bytes with
  | hi :: lo :: rest =>
    match decodeWord (joinBytes hi lo) with
    | .ok i => .ok (i, rest)
    | .error r => .error r
  | _ => .error .truncated

/-- The instruction the decoder reads from an opcode-table word of `nbits` bits with value `w`, laid out in memory order. -/
def decodeTableWord (nbits w : Nat) : Option Instr :=
  match decodeBytes [highByte (BitVec.ofNat 16 (w % 2 ^ nbits)), lowByte (BitVec.ofNat 16 (w % 2 ^ nbits))] with
  | .ok (i, _) => some i
  | .error _ => none

/-! ## The opcode table and the encoder -/

/-- A row of the opcode map: the word's bits under `mask` are `pattern` (R84; C4 of 90_conflicts.md for the masks). -/
structure OpcodeRow where
  pattern : Word
  mask : Word
  deriving DecidableEq, Repr

/-- The row that selects an instruction (the dispatch key of R84). -/
def Instr.row : Instr → OpcodeRow
  | .cls => ⟨0x0000, 0xF00F⟩
  | .ret => ⟨0x000E, 0xF00F⟩
  | .jp _ => ⟨0x1000, 0xF000⟩
  | .call _ => ⟨0x2000, 0xF000⟩
  | .seByte _ _ => ⟨0x3000, 0xF000⟩
  | .sneByte _ _ => ⟨0x4000, 0xF000⟩
  | .seReg _ _ => ⟨0x5000, 0xF000⟩
  | .ldByte _ _ => ⟨0x6000, 0xF000⟩
  | .addByte _ _ => ⟨0x7000, 0xF000⟩
  | .ldReg _ _ => ⟨0x8000, 0xF00F⟩
  | .orReg _ _ => ⟨0x8001, 0xF00F⟩
  | .andReg _ _ => ⟨0x8002, 0xF00F⟩
  | .xorReg _ _ => ⟨0x8003, 0xF00F⟩
  | .addReg _ _ => ⟨0x8004, 0xF00F⟩
  | .sub _ _ => ⟨0x8005, 0xF00F⟩
  | .shr _ _ => ⟨0x8006, 0xF00F⟩
  | .subn _ _ => ⟨0x8007, 0xF00F⟩
  | .shl _ _ => ⟨0x800E, 0xF00F⟩
  | .sneReg _ _ => ⟨0x9000, 0xF000⟩
  | .ldI _ => ⟨0xA000, 0xF000⟩
  | .jpV0 _ => ⟨0xB000, 0xF000⟩
  | .rnd _ _ => ⟨0xC000, 0xF000⟩
  | .drw _ _ _ => ⟨0xD000, 0xF000⟩
  | .skp _ => ⟨0xE00E, 0xF00F⟩
  | .sknp _ => ⟨0xE001, 0xF00F⟩
  | .ldVxDT _ => ⟨0xF007, 0xF0FF⟩
  | .ldVxK _ => ⟨0xF00A, 0xF0FF⟩
  | .ldDTVx _ => ⟨0xF015, 0xF0FF⟩
  | .ldSTVx _ => ⟨0xF018, 0xF0FF⟩
  | .addI _ => ⟨0xF01E, 0xF0FF⟩
  | .ldF _ => ⟨0xF029, 0xF0FF⟩
  | .ldB _ => ⟨0xF033, 0xF0FF⟩
  | .ldMemVx _ => ⟨0xF055, 0xF0FF⟩
  | .ldVxMem _ => ⟨0xF065, 0xF0FF⟩

/-- Format `NNN` (R65). -/
def wordNNN (f : BitVec 4) (nnn : Addr12) : Word := f ++ nnn

/-- Formats `XKK` and `XSS` (R65). -/
def wordXKK (f : BitVec 4) (x : Nibble) (kk : Byte) : Word := (f ++ BitVec.ofFin (w := 4) x) ++ kk

/-- Formats `XY`, `XYS` and `XYN` (R65). -/
def wordXYN (f : BitVec 4) (x y n : Nibble) : Word :=
  ((f ++ BitVec.ofFin (w := 4) x) ++ BitVec.ofFin (w := 4) y) ++ BitVec.ofFin (w := 4) n

/-- The canonical word of an instruction (R81, R84). -/
def encode : Instr → Word
  | .cls => 0x00E0
  | .ret => 0x00EE
  | .jp nnn => wordNNN 0x1 nnn
  | .call nnn => wordNNN 0x2 nnn
  | .seByte x kk => wordXKK 0x3 x kk
  | .sneByte x kk => wordXKK 0x4 x kk
  | .seReg x y => wordXYN 0x5 x y 0x0
  | .ldByte x kk => wordXKK 0x6 x kk
  | .addByte x kk => wordXKK 0x7 x kk
  | .ldReg x y => wordXYN 0x8 x y 0x0
  | .orReg x y => wordXYN 0x8 x y 0x1
  | .andReg x y => wordXYN 0x8 x y 0x2
  | .xorReg x y => wordXYN 0x8 x y 0x3
  | .addReg x y => wordXYN 0x8 x y 0x4
  | .sub x y => wordXYN 0x8 x y 0x5
  | .shr x y => wordXYN 0x8 x y 0x6
  | .subn x y => wordXYN 0x8 x y 0x7
  | .shl x y => wordXYN 0x8 x y 0xE
  | .sneReg x y => wordXYN 0x9 x y 0x0
  | .ldI nnn => wordNNN 0xA nnn
  | .jpV0 nnn => wordNNN 0xB nnn
  | .rnd x kk => wordXKK 0xC x kk
  | .drw x y n => wordXYN 0xD x y n
  | .skp x => wordXKK 0xE x 0x9E
  | .sknp x => wordXKK 0xE x 0xA1
  | .ldVxDT x => wordXKK 0xF x 0x07
  | .ldVxK x => wordXKK 0xF x 0x0A
  | .ldDTVx x => wordXKK 0xF x 0x15
  | .ldSTVx x => wordXKK 0xF x 0x18
  | .addI x => wordXKK 0xF x 0x1E
  | .ldF x => wordXKK 0xF x 0x29
  | .ldB x => wordXKK 0xF x 0x33
  | .ldMemVx x => wordXKK 0xF x 0x55
  | .ldVxMem x => wordXKK 0xF x 0x65

/-- The two bytes of an instruction in memory order (R52, R82). -/
def encodeBytes (i : Instr) : List Byte := [highByte (encode i), lowByte (encode i)]

/-- The bits of a word that select the instruction or hold an operand of it: every bit but the ones R67, R69 and R71 leave
unexamined. Words equal under this mask execute alike (R81). -/
def examinedMask : Instr → Word
  | .cls | .ret => 0xF00F
  | .seReg _ _ | .sneReg _ _ => 0xFFF0
  | .skp _ | .sknp _ => 0xFF0F
  | .jp _ | .call _ | .seByte _ _ | .sneByte _ _ | .ldByte _ _ | .addByte _ _ | .ldReg _ _ | .orReg _ _ | .andReg _ _
  | .xorReg _ _ | .addReg _ _ | .sub _ _ | .shr _ _ | .subn _ _ | .shl _ _ | .ldI _ | .jpV0 _ | .rnd _ _ | .drw _ _ _
  | .ldVxDT _ | .ldVxK _ | .ldDTVx _ | .ldSTVx _ | .addI _ | .ldF _ | .ldB _ | .ldMemVx _ | .ldVxMem _ => 0xFFFF

end Sys2Proof
end

