-- ==== Sys2Proof/Config.lean ====
section
/-! DEFINITION. The parameters of spec 00_scope.md R6: the fixed ones, the configuration, and the free random draw. -/

namespace Sys2Proof

/-- `MEM_SIZE`: addresses 0x000-0xFFF (R6, R43). -/
def memSize : Nat := 4096

/-- `PROGRAM_START`: where `load` puts a program and where `pc` starts (R6, R46). -/
def programStart : Nat := 0x200

/-- `MAX_ROM = 4096 - 0x200` (R6, R50). -/
def maxRom : Nat := 3584

/-- The configuration parameters of R6. The type of `fontBase` is the bound `FONT_BASE <= 0x1B0` of R6. -/
structure Config where
  /-- `FONT_BASE` (R6, R48). -/
  fontBase : Fin 0x1B1
  /-- `FONT_DATA`: 80 bytes, glyph d at offset 5 * d (R6, R48). -/
  fontData : Vector Byte 80
  /-- `TIMER_COUPLED` (R6, R76). -/
  timerCoupled : Bool
  deriving DecidableEq, Repr

/-- The free 8-bit draw of the k-th executed Cxkk (R6, R107). It has no body, so nothing can be proved of its value:
a statement holds for every draw (log 4). -/
opaque Config.draw8 : Nat → Byte

end Sys2Proof
end

