-- ==== Sys2Proof/Machine/Memory.lean ====
section
/-! DEFINITION. The 4096-byte memory as a canonical list of (address, byte) pairs: addresses strictly rising, only the bytes
that differ from what reset leaves (spec 20_memory.md R43, R46, R48; log 8). -/

namespace Sys2Proof.Machine

/-- What an unlisted address reads as: the byte reset leaves there, `FONT_DATA` at `FONT_BASE`..`FONT_BASE + 79` and 0x00
elsewhere (10_state.md R39, 70_reset_and_hazards.md R152). -/
def resetByte (c : Config) (a : Nat) : Byte :=
  if h : c.fontBase.val ≤ a ∧ a < c.fontBase.val + 80 then c.fontData[a - c.fontBase.val] else 0

/-- The bytes that differ from `resetByte`, by rising address. -/
abbrev Memory := List Host.Cell

/-- The byte listed at an address, if one is. -/
def Memory.lookup (m : Memory) (a : Nat) : Option Byte :=
  match m with
  | [] => none
  | (b, v) :: rest => if a = b then some v else Memory.lookup rest a

/-- The byte at an address (R43). -/
def Memory.read (c : Config) (m : Memory) (a : Nat) : Byte := (Memory.lookup m a).getD (resetByte c a)

/-- List a byte at an address, keeping addresses rising. -/
def Memory.insert (m : Memory) (a : Nat) (v : Byte) : Memory :=
  match m with
  | [] => [(a, v)]
  | (b, u) :: rest =>
    if a < b then (a, v) :: (b, u) :: rest
    else if a = b then (a, v) :: rest
    else (b, u) :: Memory.insert rest a v

/-- Take an address off the list, so that it reads as after reset. -/
def Memory.erase (m : Memory) (a : Nat) : Memory := m.filter fun p => p.1 != a

/-- Write one byte (R44), keeping the canonical form: a byte that equals the reset byte is not listed. -/
def Memory.write (c : Config) (m : Memory) (a : Nat) (v : Byte) : Memory :=
  if v = resetByte c a then Memory.erase m a else Memory.insert m a v

/-- The canonical form: addresses strictly rising, each inside memory, no listed byte equal to the reset byte. -/
abbrev Memory.wf (c : Config) (m : Memory) : Prop :=
  m.Pairwise (fun p q => p.1 < q.1) ∧ ∀ p ∈ m, p.1 < memSize ∧ p.2 ≠ resetByte c p.1

end Sys2Proof.Machine
end

