-- ==== Sys2Proof/Machine/ResetValues.lean ====
section
/-! DEFINITION. The default configuration of spec 00_scope.md R6. -/

namespace Sys2Proof.Machine

/-- The conventional CHIP-8 font, the spec's default `FONT_DATA` (20_memory.md R48). PRESUMED: the source gives no glyph
bytes; the spec supplies them from general knowledge (G1, D2; log 3). -/
def conventionalFont : Vector Byte 80 := #v[
  0xF0, 0x90, 0x90, 0x90, 0xF0,
  0x20, 0x60, 0x20, 0x20, 0x70,
  0xF0, 0x10, 0xF0, 0x80, 0xF0,
  0xF0, 0x10, 0xF0, 0x10, 0xF0,
  0x90, 0x90, 0xF0, 0x10, 0x10,
  0xF0, 0x80, 0xF0, 0x10, 0xF0,
  0xF0, 0x80, 0xF0, 0x90, 0xF0,
  0xF0, 0x10, 0x20, 0x40, 0x40,
  0xF0, 0x90, 0xF0, 0x90, 0xF0,
  0xF0, 0x90, 0xF0, 0x10, 0xF0,
  0xF0, 0x90, 0xF0, 0x90, 0x90,
  0xE0, 0x90, 0xE0, 0x90, 0xE0,
  0xF0, 0x80, 0x80, 0x80, 0xF0,
  0xE0, 0x90, 0x90, 0x90, 0xE0,
  0xF0, 0x80, 0xF0, 0x80, 0xF0,
  0xF0, 0x80, 0xF0, 0x80, 0x80]

/-- The defaults of R6: `FONT_BASE = 0x050` (D1), the conventional font (D2), `TIMER_COUPLED = true` (D3); log 2. -/
def defaultConfig : Config := { fontBase := 0x050, fontData := conventionalFont, timerCoupled := true }

end Sys2Proof.Machine
end

