-- ==== Sys2Proof/Machine/State.lean ====
section
/-! DEFINITION. The whole machine state (spec 10_state.md, 20_memory.md R43), why a step can stop, and the state after
reset (10_state.md R39). -/

namespace Sys2Proof.Machine

/-- The pixel grid: 32 rows of 64 pixels, `true` is on (10_state.md R34, R35). Pixel (x, y) is `fb[y][x]` (log 12). -/
abbrev Framebuffer := Vector (Vector Bool 64) 32

/-- The machine state of rule R40: one record with exactly the fields of R39, named as the spec names them. The configuration
is no field of it (R40). -/
structure MachineState where
  /-- `V[0]`..`V[15]`; `V[15]` is VF (R19, R20). -/
  V : Vector Byte 16
  /-- Index register (R22). -/
  I : Word
  /-- Program counter (R24). -/
  pc : Word
  /-- Call stack, a store of its own (R29). -/
  stack : Vector Word 16
  /-- Entries of `stack` in use, 0..16 (R30, R31, R40; log 9). -/
  sp : Fin 17
  /-- Delay timer (R32). -/
  DT : Byte
  /-- Sound timer (R32). -/
  ST : Byte
  /-- Keys 0x0-0xF, `true` is pressed (R33). -/
  key : Vector Bool 16
  /-- Framebuffer (R34). -/
  fb : Framebuffer
  /-- The most recently fetched word (R36). -/
  curOp : Word
  /-- Memory (R43), in canonical form. -/
  mem : Memory
  deriving DecidableEq, Repr

/-- What the host's `step` carries from one step to the next: the machine state, and beside it the parameter of R40, which a step
that takes one argument must find there (log 1), and the index of the next random draw (log 4). -/
structure State extends MachineState where
  /-- The parameters of R6: no field of the machine state (R40), never changed by any call. -/
  cfg : Config
  /-- The model's own: how many draws `draw8()` has given (R107). -/
  drawCount : Nat
  deriving DecidableEq, Repr

/-- The fatal outcomes of `cycle` (60_exceptions.md R127), with the information R127 records. The model ends the step
with a fault on each (R136, D29): safe, since no claim can then treat the run as good; what the machine is left in (R131)
is `cycle`'s state. -/
inductive Fault where
  /-- 2nnn with `sp = 16` (R88, R129). Safe. -/
  | stackOverflow
  /-- 00EE with `sp = 0` (R86, R129). Safe. -/
  | stackUnderflow
  /-- An address above 0xFFF, or a fetch with `pc > 0xFFE` (R130); the address that failed the check. Safe. -/
  | memoryOutOfBounds (addr : Nat)
  /-- Ex9E or ExA1 with `V[x] > 0x0F` (R132); the index. Safe. -/
  | keyIndexOutOfRange (index : Byte)
  deriving DecidableEq, Repr

/-- Why the model gives no meaning. -/
inductive Refusal where
  /-- An instruction the model has no meaning for, by its table mnemonic. No arm of `exec` raises it. Safe. -/
  | notModelled (mnemonic : String)
  /-- `set_key` with an index outside 0..15, refused with no state change (60_exceptions.md R145). Raised by the host call
  only, never by a step. Safe. -/
  | keyIndex (index : Nat)
  deriving DecidableEq, Repr

/-- The state at creation under a configuration (10_state.md R39, 70_reset_and_hazards.md R153). Memory lists nothing:
every address reads as `resetByte`. -/
def State.powerUp (c : Config) : State where
  V := Vector.replicate 16 0x00
  I := 0x0000
  pc := 0x0200
  stack := Vector.replicate 16 0x0000
  sp := 0
  DT := 0x00
  ST := 0x00
  key := Vector.replicate 16 false
  fb := Vector.replicate 32 (Vector.replicate 64 false)
  curOp := 0x0000
  mem := []
  cfg := c
  drawCount := 0

/-- The machine right after reset, under the default configuration of R6 (R39; log 2). -/
def State.reset : State := State.powerUp defaultConfig

end Sys2Proof.Machine
end

