-- ==== Sys2Proof/Machine/Ops.lean ====
section
/-! DEFINITION. The shared operations: memory, call stack, raising a fatal outcome, fetch and advance, the timer step, the
random draw. -/

namespace Sys2Proof.Machine

/-! ## Memory (20_memory.md R43-R45, R55, R56) -/

/-- The byte memory holds at an address (R43). -/
def State.peek (s : State) (a : Nat) : Byte := Memory.read s.cfg s.mem a

/-- Put a byte at an address; only ever used behind a bounds check (R44). -/
def State.poke (s : State) (a : Nat) (v : Byte) : State := { s with mem := Memory.write s.cfg s.mem a v }

/-- `MemRead(a, 1)` (R44). -/
def memRead (s : State) (a : Nat) : Except Fault Byte :=
  if 0xFFF < a then .error (.memoryOutOfBounds a) else .ok (s.peek a)

/-- `MemWrite(a, 1, v)` (R44). -/
def memWrite (s : State) (a : Nat) (v : Byte) : Except Fault State :=
  if 0xFFF < a then .error (.memoryOutOfBounds a) else .ok (s.poke a v)

/-- The check of R56: `n` bytes from `a` are wanted, and the highest address lies above 0xFFF. No bytes, no check (R119). -/
def spanOutOfBounds (a n : Nat) : Bool := decide (0 < n ∧ 0xFFF < a + n - 1)

/-- The bytes at `a`, `a + 1`, ..., `a + n - 1`. -/
def State.peekList (s : State) (a : Nat) : Nat → List Byte
  | 0 => []
  | n + 1 => s.peek a :: s.peekList (a + 1) n

/-- Put bytes at `a`, `a + 1`, ... in that order. -/
def State.pokeList (s : State) (a : Nat) : List Byte → State
  | [] => s
  | v :: rest => (s.poke a v).pokeList (a + 1) rest

/-- Read `n` bytes from `a`, all checked before the first moves (R55, R56); the outcome names the highest address
(60_exceptions.md R127). -/
def loadBytes (s : State) (a n : Nat) : Except Fault (List Byte) :=
  if spanOutOfBounds a n then .error (.memoryOutOfBounds (a + n - 1)) else .ok (s.peekList a n)

/-- Write bytes from `a`, all checked before the first moves (R55, R56). -/
def storeBytes (s : State) (a : Nat) (bytes : List Byte) : Except Fault State :=
  if spanOutOfBounds a bytes.length then .error (.memoryOutOfBounds (a + bytes.length - 1)) else .ok (s.pokeList a bytes)

/-! ## Fatal outcomes (60_exceptions.md R131, R135) -/

/-- `raise E(info)`: the handler ends with a fatal outcome and has changed nothing (R131). There is no trap entry to take:
nothing is saved and control goes nowhere (R135); the state left is the fetched and advanced one, which `cycle` returns. -/
def raise (f : Fault) : Host.Outcome State Fault Refusal := .fault f

/-- End a handler with the state an operation gave, or raise what it found. -/
def finish (r : Except Fault State) : Host.Outcome State Fault Refusal :=
  match r with
  | .error f => raise f
  | .ok t => .next t

/-! ## Call stack (10_state.md R30, R31) -/

/-- `push(v)` (R30). -/
def push (s : State) (v : Word) : Except Fault State :=
  if h : s.sp.val = 16 then .error .stackOverflow
  else .ok { s with stack := s.stack.set s.sp.val v (by omega), sp := ⟨s.sp.val + 1, by omega⟩ }

/-- `pop()` (R30): the popped value and the state after; the slot is not cleared. -/
def pop (s : State) : Except Fault (Word × State) :=
  if h : s.sp.val = 0 then .error .stackUnderflow
  else .ok (s.stack[s.sp.val - 1], { s with sp := ⟨s.sp.val - 1, by omega⟩ })

/-! ## Fetch and advance (30_encoding.md R73, R74) -/

/-- Step 1 of the cycle: check `pc`, then read the word big-endian (R73). -/
def fetchWord (s : State) : Except Fault Word :=
  if 0xFFE < s.pc.toNat then .error (.memoryOutOfBounds s.pc.toNat)
  else
    match memRead s s.pc.toNat, memRead s (s.pc.toNat + 1) with
    | .ok hi, .ok lo => .ok (joinBytes hi lo)
    | .error f, _ => .error f
    | _, .error f => .error f

/-- Record the word (R73) and advance `pc` by 2 (R74): the state a handler runs on (00_scope.md R12). -/
def State.advance (s : State) (op : Word) : State := { s with curOp := op, pc := s.pc + 2 }

/-! ## Timers (60_exceptions.md R140, R141) -/

/-- One countdown, stopping at 0 (R139, R140). -/
def countDown (t : Byte) : Byte := if 0 < t.toNat then t - 1 else t

/-- `timer_tick()` (R140). -/
def State.timerTick (s : State) : State := { s with DT := countDown s.DT, ST := countDown s.ST }

/-- Step 5 of the cycle: the timer step, only when `TIMER_COUPLED` (30_encoding.md R76). -/
def State.timerStep (s : State) : State := if s.cfg.timerCoupled then s.timerTick else s

/-! ## Random draw (42_register_alu.md R107) -/

/-- The byte `draw8()` gives in this state: a free value (R107; log 4). -/
def State.drawnByte (s : State) : Byte := Config.draw8 s.drawCount

/-- One draw has been taken, so the next one is another (R107). -/
def State.countDraw (s : State) : State := { s with drawCount := s.drawCount + 1 }

/-! ## Placing a word where the next step fetches it -/

/-- Store a word at an address and the next, big-endian (R52). -/
def State.placeWord (s : State) (a : Nat) (w : Word) : State := s.pokeList a [highByte w, lowByte w]

/-- The word at `pc`; from a `pc` no fetch can use (R73), `pc` is first set to 0x200 (log 11). -/
def State.placeAtFetch (s : State) (w : Word) : State :=
  if s.pc.toNat ≤ 0xFFE then s.placeWord s.pc.toNat w else ({ s with pc := 0x0200 } : State).placeWord 0x0200 w

end Sys2Proof.Machine
end

