-- ==== Sys2Proof/Machine/Operands.lean ====
section
/-! DEFINITION. Operand forms: general registers, immediates, addresses, the skip, keys and pixels. -/

namespace Sys2Proof.Machine

/-- `V[x]` (10_state.md R19). -/
def State.readV (s : State) (x : Nibble) : Byte := s.V[x]

/-- `V[x] <- v` (R19): no register is hardwired. -/
def State.writeV (s : State) (x : Nibble) (v : Byte) : State := { s with V := s.V.set x.val v x.isLt }

/-- The register number of VF (R20). -/
def regVF : Nibble := 15

/-- `V[0] <- bytes[0]`, `V[1] <- bytes[1]`, ... starting at register number `k`; numbers past 15 do not occur and are
dropped (43_index_memory.md R113). -/
def State.writeVs (s : State) (k : Nat) : List Byte → State
  | [] => s
  | v :: rest => if h : k < 16 then (s.writeV ⟨k, h⟩ v).writeVs (k + 1) rest else s

/-- The values of `V[k]`, `V[k+1]`, ...: `n` of them, none past `V[15]` (43_index_memory.md R112). -/
def State.readVs (s : State) (k : Nat) : Nat → List Byte
  | 0 => []
  | n + 1 => if h : k < 16 then s.readV ⟨k, h⟩ :: s.readVs (k + 1) n else []

/-- `zext_16(nnn)` (00_scope.md R9, 30_encoding.md R64). -/
def zext16 (nnn : Addr12) : Word := nnn.setWidth 16

/-- `I <- a`, an exact number brought to 16 bits (R9, R22). -/
def State.writeI (s : State) (a : Nat) : State := { s with I := BitVec.ofNat 16 a }

/-- `pc <- target`, never checked here (10_state.md R26). -/
def State.writePc (s : State) (target : Word) : State := { s with pc := target }

/-- A skip: 2 more on `pc` when the condition holds (00_scope.md R14, 10_state.md R25). -/
def State.skipIf (s : State) (c : Bool) : State := if c then s.writePc (s.pc + 2) else s

/-- `DT <- v` (10_state.md R32). -/
def State.writeDT (s : State) (v : Byte) : State := { s with DT := v }

/-- `ST <- v` (10_state.md R32). -/
def State.writeST (s : State) (v : Byte) : State := { s with ST := v }

/-- `key[k]` (10_state.md R33). -/
def State.readKey (s : State) (k : Nibble) : Bool := s.key[k]

/-- `key[k] <- p`, only ever by the host (10_state.md R33). -/
def State.writeKey (s : State) (k : Nibble) (p : Bool) : State := { s with key := s.key.set k.val p k.isLt }

/-- The key a register names, or the outcome R132 gives for a value above 0x0F. -/
def keyOfByte (v : Byte) : Except Fault Nibble :=
  if h : v.toNat ≤ 0xF then .ok ⟨v.toNat, by omega⟩ else .error (.keyIndexOutOfRange v)

/-- The least pressed key, if any is (45_timers_keypad.md R124). -/
def State.leastKey (s : State) : Option Nibble := (List.finRange 16).find? fun k => s.readKey k

/-- `fb[x][y]` (10_state.md R34). -/
def State.pixel (s : State) (x : Fin 64) (y : Fin 32) : Bool := s.fb[y][x]

/-- Replace the framebuffer. -/
def State.writeFb (s : State) (f : Framebuffer) : State := { s with fb := f }

end Sys2Proof.Machine
end

