-- ==== Sys2Proof/Machine/Flags.lean ====
section
/-! DEFINITION. Every value an instruction writes to VF as a flag (spec 10_state.md R20, R37), and the order of the two
writes (42_register_alu.md R106). -/

namespace Sys2Proof.Machine

/-- A condition as a flag: 1 or 0. -/
def flagOf (c : Bool) : Byte := if c then 1 else 0

/-- 8xy4: carry out, 1 exactly when the exact sum exceeds 255 (R100). -/
def carryFlag (a b : Byte) : Byte := flagOf (decide (255 < a.toNat + b.toNat))

/-- 8xy5 and 8xy7: 1 exactly when the minuend is strictly greater (R101, R103; 90_conflicts.md C1). -/
def greaterFlag (a b : Byte) : Byte := flagOf (decide (b.toNat < a.toNat))

/-- 8xy6: the bit shifted out on the right (R102). -/
def lowBitFlag (a : Byte) : Byte := a &&& 1

/-- 8xyE: the bit shifted out on the left (R104). -/
def highBitFlag (a : Byte) : Byte := (a >>> 7) &&& 1

/-- Write VF first and `V[x]` last, so that with x = 0xF the result stands (R106). -/
def State.writeFlagThenV (s : State) (flag : Byte) (x : Nibble) (result : Byte) : State :=
  (s.writeV regVF flag).writeV x result

end Sys2Proof.Machine
end

