-- ==== Sys2Proof/Machine/ControlFlow.lean ====
section
/-! DEFINITION. Control flow (spec 41_control_flow.md R86-R93). Each meaning runs after fetch and advance, so `pc` is the
instruction's address plus 2. -/

namespace Sys2Proof.Machine

/-- 00EE RET (R86). -/
def execRet (s : State) : Host.Outcome State Fault Refusal :=
  match pop s with
  | .error f => raise f
  | .ok (target, t) => .next (t.writePc target)

/-- 1nnn JP addr (R87). -/
def execJp (nnn : Addr12) (s : State) : Host.Outcome State Fault Refusal := .next (s.writePc (zext16 nnn))

/-- 2nnn CALL addr (R88): the pushed value is the already advanced `pc`. -/
def execCall (nnn : Addr12) (s : State) : Host.Outcome State Fault Refusal :=
  match push s s.pc with
  | .error f => raise f
  | .ok t => .next (t.writePc (zext16 nnn))

/-- 3xkk SE Vx, byte (R89). -/
def execSeByte (x : Nibble) (kk : Byte) (s : State) : Host.Outcome State Fault Refusal :=
  .next (s.skipIf (s.readV x == kk))

/-- 4xkk SNE Vx, byte (R90). -/
def execSneByte (x : Nibble) (kk : Byte) (s : State) : Host.Outcome State Fault Refusal :=
  .next (s.skipIf (s.readV x != kk))

/-- 5xy0 SE Vx, Vy (R91). -/
def execSeReg (x y : Nibble) (s : State) : Host.Outcome State Fault Refusal :=
  .next (s.skipIf (s.readV x == s.readV y))

/-- 9xy0 SNE Vx, Vy (R92). -/
def execSneReg (x y : Nibble) (s : State) : Host.Outcome State Fault Refusal :=
  .next (s.skipIf (s.readV x != s.readV y))

/-- Bnnn JP V0, addr (R93): the sum is at most 0x10FE, so 16 bits hold it exactly. -/
def execJpV0 (nnn : Addr12) (s : State) : Host.Outcome State Fault Refusal :=
  .next (s.writePc ((s.readV 0).setWidth 16 + zext16 nnn))

end Sys2Proof.Machine
end

