-- ==== Sys2Proof/Machine/Display.lean ====
section
/-! DEFINITION. Display (spec 44_display.md R114-R120): clear, and the sprite draw by XOR with its collision flag. -/

namespace Sys2Proof.Machine

/-- A pixel's column and row. -/
abbrev Pixel := Fin 64 × Fin 32

/-- Every pixel off (R114). -/
def clearFb : Framebuffer := Vector.replicate 32 (Vector.replicate 64 false)

/-- The pixel at a column and row (R34). -/
def fbGet (f : Framebuffer) (p : Pixel) : Bool := f[p.2][p.1]

/-- Write one pixel. -/
def fbSet (f : Framebuffer) (p : Pixel) (b : Bool) : Framebuffer := f.set p.2.val (f[p.2].set p.1.val b p.1.isLt) p.2.isLt

/-- 00E0 CLS (R114). -/
def execCls (s : State) : Host.Outcome State Fault Refusal := .next (s.writeFb clearFb)

/-- The pixels the 1 bits of one sprite byte toggle, most-significant bit first, from column `x0` in row `y0`, both wrapped
(R116, R118). -/
def spriteRow (x0 y0 : Nat) (b : Byte) : List Pixel :=
  (List.finRange 8).filterMap fun col =>
    if b.getLsbD (7 - col.val) then some (Fin.ofNat 64 (x0 + col.val), Fin.ofNat 32 y0) else none

/-- The pixels a sprite toggles, in drawing order: row by row, top row first (R115, R116). -/
def spritePixels (x0 y0 : Nat) : List Byte → List Pixel
  | [] => []
  | b :: rest => spriteRow x0 y0 b ++ spritePixels x0 (y0 + 1) rest

/-- Invert each pixel in turn; the flag becomes true when one was on (R116, R117). -/
def togglePixels (f : Framebuffer) (hit : Bool) : List Pixel → Framebuffer × Bool
  | [] => (f, hit)
  | p :: rest => togglePixels (fbSet f p (!fbGet f p)) (hit || fbGet f p) rest

/-- Draw sprite bytes at start coordinates: pixels first, VF once after all of them (R115, R117). -/
def State.drawSprite (s : State) (x0 y0 : Nat) (bytes : List Byte) : State :=
  (s.writeFb (togglePixels s.fb false (spritePixels x0 y0 bytes)).1).writeV regVF
    (flagOf (togglePixels s.fb false (spritePixels x0 y0 bytes)).2)

/-- Dxyn DRW Vx, Vy, nibble (R115): coordinates are read before VF is written; n = 0 draws nothing and clears VF (R119). -/
def execDrw (x y n : Nibble) (s : State) : Host.Outcome State Fault Refusal :=
  match loadBytes s s.I.toNat n.val with
  | .error f => raise f
  | .ok bytes => .next (s.drawSprite ((s.readV x).toNat % 64) ((s.readV y).toNat % 32) bytes)

end Sys2Proof.Machine
end

