-- ==== Sys2Proof/Machine/IndexMemory.lean ====
section
/-! DEFINITION. Index register and memory transfer (spec 43_index_memory.md R108-R113). Addresses are exact sums (R45). -/

namespace Sys2Proof.Machine

/-- Annn LD I, addr (R108). -/
def execLdI (nnn : Addr12) (s : State) : Host.Outcome State Fault Refusal := .next (s.writeI nnn.toNat)

/-- Fx1E ADD I, Vx (R109): checked here, VF untouched. -/
def execAddI (x : Nibble) (s : State) : Host.Outcome State Fault Refusal :=
  if 0xFFF < s.I.toNat + (s.readV x).toNat then raise (.memoryOutOfBounds (s.I.toNat + (s.readV x).toNat))
  else .next (s.writeI (s.I.toNat + (s.readV x).toNat))

/-- Fx29 LD F, Vx (R110): no mask to a nibble. -/
def execLdF (x : Nibble) (s : State) : Host.Outcome State Fault Refusal :=
  .next (s.writeI (s.cfg.fontBase.val + 5 * (s.readV x).toNat))

/-- Hundreds, tens and ones of a byte (R111). -/
def bcdDigits (v : Byte) : List Byte :=
  [BitVec.ofNat 8 (v.toNat / 100), BitVec.ofNat 8 (v.toNat / 10 % 10), BitVec.ofNat 8 (v.toNat % 10)]

/-- Fx33 LD B, Vx (R111). -/
def execLdB (x : Nibble) (s : State) : Host.Outcome State Fault Refusal :=
  finish (storeBytes s s.I.toNat (bcdDigits (s.readV x)))

/-- Fx55 LD [I], Vx (R112): V0 to Vx inclusive. -/
def execLdMemVx (x : Nibble) (s : State) : Host.Outcome State Fault Refusal :=
  finish (storeBytes s s.I.toNat (s.readVs 0 (x.val + 1)))

/-- Fx65 LD Vx, [I] (R113): V0 to Vx inclusive. -/
def execLdVxMem (x : Nibble) (s : State) : Host.Outcome State Fault Refusal :=
  match loadBytes s s.I.toNat (x.val + 1) with
  | .error f => raise f
  | .ok bytes => .next (s.writeVs 0 bytes)

end Sys2Proof.Machine
end

