-- ==== Sys2Proof/Machine/RegisterAlu.lean ====
section
/-! DEFINITION. Register loads and ALU (spec 42_register_alu.md R94-R107). Operands are read before any write (R106). -/

namespace Sys2Proof.Machine

/-- 6xkk LD Vx, byte (R94). -/
def execLdByte (x : Nibble) (kk : Byte) (s : State) : Host.Outcome State Fault Refusal := .next (s.writeV x kk)

/-- 7xkk ADD Vx, byte (R95): modulo 256, no flag. -/
def execAddByte (x : Nibble) (kk : Byte) (s : State) : Host.Outcome State Fault Refusal :=
  .next (s.writeV x (s.readV x + kk))

/-- 8xy0 LD Vx, Vy (R96). -/
def execLdReg (x y : Nibble) (s : State) : Host.Outcome State Fault Refusal := .next (s.writeV x (s.readV y))

/-- 8xy1 OR Vx, Vy (R97). -/
def execOrReg (x y : Nibble) (s : State) : Host.Outcome State Fault Refusal :=
  .next (s.writeV x (s.readV x ||| s.readV y))

/-- 8xy2 AND Vx, Vy (R98). -/
def execAndReg (x y : Nibble) (s : State) : Host.Outcome State Fault Refusal :=
  .next (s.writeV x (s.readV x &&& s.readV y))

/-- 8xy3 XOR Vx, Vy (R99). -/
def execXorReg (x y : Nibble) (s : State) : Host.Outcome State Fault Refusal :=
  .next (s.writeV x (s.readV x ^^^ s.readV y))

/-- 8xy4 ADD Vx, Vy (R100). -/
def execAddReg (x y : Nibble) (s : State) : Host.Outcome State Fault Refusal :=
  .next (s.writeFlagThenV (carryFlag (s.readV x) (s.readV y)) x (s.readV x + s.readV y))

/-- 8xy5 SUB Vx, Vy (R101). -/
def execSub (x y : Nibble) (s : State) : Host.Outcome State Fault Refusal :=
  .next (s.writeFlagThenV (greaterFlag (s.readV x) (s.readV y)) x (s.readV x - s.readV y))

/-- 8xy6 SHR Vx (R102): `Vy` is not read. -/
def execShr (x : Nibble) (s : State) : Host.Outcome State Fault Refusal :=
  .next (s.writeFlagThenV (lowBitFlag (s.readV x)) x (s.readV x >>> 1))

/-- 8xy7 SUBN Vx, Vy (R103). -/
def execSubn (x y : Nibble) (s : State) : Host.Outcome State Fault Refusal :=
  .next (s.writeFlagThenV (greaterFlag (s.readV y) (s.readV x)) x (s.readV y - s.readV x))

/-- 8xyE SHL Vx (R104): `Vy` is not read. -/
def execShl (x : Nibble) (s : State) : Host.Outcome State Fault Refusal :=
  .next (s.writeFlagThenV (highBitFlag (s.readV x)) x (s.readV x <<< 1))

/-- Cxkk with a given draw `r`: the injectable form of R105 and R107. One draw is taken, whatever `kk` is. -/
def rndWith (r : Byte) (x : Nibble) (kk : Byte) (s : State) : State := (s.writeV x (r &&& kk)).countDraw

/-- Cxkk RND Vx, byte (R105): the draw is the free value of R107. -/
def execRnd (x : Nibble) (kk : Byte) (s : State) : Host.Outcome State Fault Refusal :=
  .next (rndWith s.drawnByte x kk s)

end Sys2Proof.Machine
end

