-- ==== Sys2Proof/Machine/TimersKeypad.lean ====
section
/-! DEFINITION. Keypad and timer instructions (spec 45_timers_keypad.md R121-R126). -/

namespace Sys2Proof.Machine

/-- Ex9E SKP Vx (R121). -/
def execSkp (x : Nibble) (s : State) : Host.Outcome State Fault Refusal :=
  match keyOfByte (s.readV x) with
  | .error f => raise f
  | .ok k => .next (s.skipIf (s.readKey k))

/-- ExA1 SKNP Vx (R122). -/
def execSknp (x : Nibble) (s : State) : Host.Outcome State Fault Refusal :=
  match keyOfByte (s.readV x) with
  | .error f => raise f
  | .ok k => .next (s.skipIf (!s.readKey k))

/-- Fx07 LD Vx, DT (R123): the value before this cycle's timer step. -/
def execLdVxDT (x : Nibble) (s : State) : Host.Outcome State Fault Refusal := .next (s.writeV x s.DT)

/-- Fx0A LD Vx, K (R124): the least pressed key, or back to this instruction's own address. -/
def execLdVxK (x : Nibble) (s : State) : Host.Outcome State Fault Refusal :=
  match s.leastKey with
  | some k => .next (s.writeV x (BitVec.ofNat 8 k.val))
  | none => .next (s.writePc (s.pc - 2))

/-- Fx15 LD DT, Vx (R125). -/
def execLdDTVx (x : Nibble) (s : State) : Host.Outcome State Fault Refusal := .next (s.writeDT (s.readV x))

/-- Fx18 LD ST, Vx (R126). -/
def execLdSTVx (x : Nibble) (s : State) : Host.Outcome State Fault Refusal := .next (s.writeST (s.readV x))

end Sys2Proof.Machine
end

