-- ==== Sys2Proof/Machine/Cycle.lean ====
section
/-! DEFINITION. `cycle()` whole, with the outcome it returns and the state it leaves on every path (spec 30_encoding.md
R73-R77, 60_exceptions.md R127-R134). -/

namespace Sys2Proof.Machine

/-- The outcomes of R127; the four fatal ones are `Fault`. -/
inductive CallOutcome where
  /-- The instruction, or the load, completed. -/
  | ok
  /-- The fetched word is unmapped; recoverable (R128). -/
  | invalidOpcode (op : Word)
  /-- A fatal outcome of `cycle` (R129, R130, R132). -/
  | fatal (f : Fault)
  /-- `load` of more than 3584 bytes (R133). -/
  | romTooLarge
  deriving DecidableEq, Repr

/-- The numeric code of an outcome (R127, D23). -/
def CallOutcome.code : CallOutcome → Nat
  | .ok => 0
  | .invalidOpcode _ => 1
  | .fatal .stackOverflow => 2
  | .fatal .stackUnderflow => 3
  | .fatal (.memoryOutOfBounds _) => 4
  | .fatal (.keyIndexOutOfRange _) => 5
  | .romTooLarge => 6

/-- What a host call hands back: an outcome of R127, nothing, or a refusal (R145). -/
inductive Reply where
  | returned (o : CallOutcome)
  | silent
  | refused (r : Refusal)
  deriving DecidableEq, Repr

/-- A host call's reply and the state after it. -/
structure CallResult where
  reply : Reply
  state : State
  deriving DecidableEq, Repr

/-- Steps 3 to 5 on a fetched word: `before` is the state after fetch and advance. An unmapped word changes nothing more
(R75, R128); a handler's fatal outcome leaves `before` and skips the timer step (R76, R131). -/
def runWord (op : Word) (before : State) : CallResult :=
  match decodeWord op with
  | .error _ => ⟨.returned (.invalidOpcode op), before.timerStep⟩
  | .ok i =>
    match exec i before with
    | .next t => ⟨.returned .ok, t.timerStep⟩
    | .fault f => ⟨.returned (.fatal f), before⟩
    | .refused r => ⟨.refused r, before⟩

/-- `cycle()` (R77): a fetch that faults changes nothing at all (R73). -/
def cycle (s : State) : CallResult :=
  match fetchWord s with
  | .error f => ⟨.returned (.fatal f), s⟩
  | .ok op => runWord op (s.advance op)

/-- A call's result as the three outcomes of a step: a completed cycle (`Ok` or `InvalidOpcode`) is a next state, a fatal
outcome a fault (R136, D29; log 5). -/
def CallResult.asOutcome (r : CallResult) : Host.Outcome State Fault Refusal :=
  match r.reply with
  | .returned (.fatal f) => .fault f
  | .refused x => .refused x
  | .returned .ok => .next r.state
  | .returned (.invalidOpcode _) => .next r.state
  | .returned .romTooLarge => .next r.state
  | .silent => .next r.state

end Sys2Proof.Machine
end

