-- ==== Sys2Proof/Machine/HostInterface.lean ====
section
/-! DEFINITION. The host's entry points other than `cycle`, the getters, and runs of host calls (spec 60_exceptions.md
R144-R149, 20_memory.md R50, R51, 70_reset_and_hazards.md R151-R153, 10_state.md R41). -/

namespace Sys2Proof.Machine

/-- `load(bytes)` (R50, R51): a ROM over 3584 bytes is rejected with no byte written (R133). -/
def hostLoad (bytes : List Byte) (s : State) : CallResult :=
  if maxRom < bytes.length then ⟨.returned .romTooLarge, s⟩ else ⟨.returned .ok, s.pokeList programStart bytes⟩

/-- `reset()` (R151, R152): the power-up state under the same configuration. The model's own draw counter goes on, so that
draws after a reset are new ones (log 4). -/
def hostReset (s : State) : CallResult := ⟨.silent, { State.powerUp s.cfg with drawCount := s.drawCount }⟩

/-- `set_key(index, pressed)` (R145): an index outside 0..15 is refused with no change. -/
def hostSetKey (index : Nat) (pressed : Bool) (s : State) : CallResult :=
  if h : index < 16 then ⟨.silent, s.writeKey ⟨index, h⟩ pressed⟩ else ⟨.refused (.keyIndex index), s⟩

/-- `tick_timers()`: one timer step, whatever `TIMER_COUPLED` is (R141). -/
def hostTickTimers (s : State) : CallResult := ⟨.silent, s.timerTick⟩

/-- The state-changing entry points of R146. -/
inductive HostCall where
  | cycle
  | tickTimers
  | load (bytes : List Byte)
  | reset
  | setKey (index : Nat) (pressed : Bool)
  deriving DecidableEq, Repr

/-- One host call (R146). -/
def hostCall (c : HostCall) (s : State) : CallResult :=
  match c with
  | .cycle => cycle s
  | .tickTimers => hostTickTimers s
  | .load bytes => hostLoad bytes s
  | .reset => hostReset s
  | .setKey index pressed => hostSetKey index pressed s

/-- A finite sequence of host calls (R149): the replies in order and the state after the last call. -/
def runCalls (s : State) : List HostCall → List Reply × State
  | [] => ([], s)
  | c :: rest => ((hostCall c s).reply :: (runCalls (hostCall c s).state rest).1, (runCalls (hostCall c s).state rest).2)

/-- `get_framebuffer()` (R41): pixel (x, y) at flat index `y * 64 + x` (R35). -/
def getFramebuffer (s : State) : List Bool := s.fb.toList.flatMap Vector.toList

/-- `get_last_opcode()` (R41). -/
def getLastOpcode (s : State) : Word := s.curOp

/-- `get_delay_timer()` (R41). -/
def getDelayTimer (s : State) : Byte := s.DT

/-- `get_sound_timer()` (R41). -/
def getSoundTimer (s : State) : Byte := s.ST

/-- "Tone should be playing": `ST > 0` (R144). -/
def soundOn (s : State) : Bool := decide (0 < s.ST.toNat)

end Sys2Proof.Machine
end

