-- ==== Sys2Proof/Machine/Step.lean ====
section
/-! DEFINITION. One step is one `cycle()` call (spec 30_encoding.md R77, 00_scope.md R7). -/

namespace Sys2Proof.Machine

/-- One `cycle()`: next state for `Ok` and `InvalidOpcode`, a fault for a fatal outcome. -/
def step (s : State) : Host.Outcome State Fault Refusal := (cycle s).asOutcome

/-- `s` with an instruction's table bits stored where the next step fetches (log 7, 11). -/
def State.withFetchWord (s : State) (nbits w : Nat) : State := s.placeAtFetch (BitVec.ofNat 16 (w % 2 ^ nbits))

end Sys2Proof.Machine
end

