-- ==== Sys2Proof/Safety.lean ====
section
/-! DEFINITION. What counts as a safe run, and the invariant every host call keeps. -/

namespace Sys2Proof.Machine

/-- The call ended without a fatal outcome (spec 60_exceptions.md R127, R149). DESIGN CHOICE: a `load` that returned `RomTooLarge`
and a refused `set_key` are not clean either. R127 calls the first rejected, not fatal, R145 the second refused, and R149 names
fatal outcomes only, so the spec leaves open whether a run with such a call may count as good; the model counts it as not
good (log 15). -/
def Reply.clean (r : Reply) : Bool :=
  match r with
  | .returned (.fatal _) => false
  | .returned .romTooLarge => false
  | .refused _ => false
  | .returned .ok => true
  | .returned (.invalidOpcode _) => true
  | .silent => true

/-- A run of host calls is safe when every call of it ends clean; only then may a claim treat its end as a good final state
(60_exceptions.md R136, R149; for a rejected `load` and a refused `set_key`, log 15). -/
def SafeRun (s : State) (calls : List HostCall) : Prop := ∀ r ∈ (runCalls s calls).1, r.clean = true

/-- The bounds the spec states of the whole machine, and the memory's canonical form: `I` never above 0xFFF (10_state.md
R23), `pc` never above 0x10FE (R27), no stack slot above 0x1000 (R27), `sp` in 0..16 (R31, by its type). -/
structure State.Inv (s : State) : Prop where
  memWf : Memory.wf s.cfg s.mem
  indexBound : s.I.toNat ≤ 0xFFF
  pcBound : s.pc.toNat ≤ 0x10FE
  stackBound : ∀ j : Fin 16, s.stack[j].toNat ≤ 0x1000

end Sys2Proof.Machine
end

