-- ==== Sys2Proof/Certificates/Slice0/Obligations.lean ====
section
/-! DEFINITION. The statements for the provers, from the spec's numbered rules. The helpers of namespace Sys2Proof.Claims spell
the rules' conditions in the spec's own terms, apart from the machine's operations. -/

namespace Sys2Proof.Claims

open Sys2Proof.Machine

/-- The handler of `i` answers a next state, and that state is as `P` says. -/
def Completes (i : Instr) (s : State) (P : State → Prop) : Prop := ∃ t, exec i s = .next t ∧ P t

/-- The handler completes, changes general registers only, and register `r` then holds `f r`. -/
def OnlyRegisters (i : Instr) (s : State) (f : Nibble → Byte) : Prop :=
  Completes i s fun t => t = { s with V := t.V } ∧ ∀ r, t.readV r = f r

/-- The handler completes and changes `pc` only. -/
def OnlyPc (i : Instr) (s : State) (target : Word) : Prop :=
  Completes i s fun t => t = { s with pc := t.pc } ∧ t.pc = target

/-- The handler completes, changes general registers only: `V[x]` holds the number `result`, VF the flag unless x = 0xF
(where the result overwrites it, R106), every other register its old value. -/
def FlagAndResult (i : Instr) (s : State) (x : Nibble) (result flag : Nat) : Prop :=
  Completes i s fun t => t = { s with V := t.V } ∧ (t.readV x).toNat = result ∧ (x ≠ 15 → (t.readV 15).toNat = flag) ∧
    ∀ r, r ≠ x → r ≠ 15 → t.readV r = s.readV r

/-- The word in memory at `pc`, the byte at the lower address high (R52). -/
def wordAt (s : State) : Word := s.peek s.pc.toNat ++ s.peek (s.pc.toNat + 1)

/-- The state a handler runs on: the word recorded (R73) and `pc` advanced by 2 (R74). -/
def fetched (s : State) : State := { s with curOp := wordAt s, pc := s.pc + 2 }

/-- One timer count, never below 0 (R140). -/
def countedDown (t : Byte) : Byte := BitVec.ofNat 8 (t.toNat - 1)

/-- The timers after a completed cycle: each counted down once when `TIMER_COUPLED`, else as they are (R76). -/
def timersAfter (t : State) : State :=
  if t.cfg.timerCoupled = true then { t with DT := countedDown t.DT, ST := countedDown t.ST } else t

/-- The unmapped words of R78, by their bits. -/
def UnmappedWord (w : Word) : Prop :=
  (w >>> 12 = 0x0 ∧ ¬ (w &&& 0xF = 0x0 ∨ w &&& 0xF = 0xE)) ∨
  (w >>> 12 = 0x8 ∧ (w &&& 0xF = 0x8 ∨ w &&& 0xF = 0x9 ∨ w &&& 0xF = 0xA ∨ w &&& 0xF = 0xB ∨ w &&& 0xF = 0xC ∨
    w &&& 0xF = 0xD ∨ w &&& 0xF = 0xF)) ∨
  (w >>> 12 = 0xE ∧ ¬ (w &&& 0xF = 0x1 ∨ w &&& 0xF = 0xE)) ∨
  (w >>> 12 = 0xF ∧ ¬ (w &&& 0xFF = 0x07 ∨ w &&& 0xFF = 0x0A ∨ w &&& 0xFF = 0x15 ∨ w &&& 0xFF = 0x18 ∨ w &&& 0xFF = 0x1E ∨
    w &&& 0xFF = 0x29 ∨ w &&& 0xFF = 0x33 ∨ w &&& 0xFF = 0x55 ∨ w &&& 0xFF = 0x65))

/-- Which handler raises which fatal outcome, and when (R129, R130, R132; the information is R127's). -/
def HandlerRaises (i : Instr) (s : State) (f : Fault) : Prop :=
  (i = .ret ∧ s.sp.val = 0 ∧ f = .stackUnderflow) ∨
  (∃ nnn, i = .call nnn ∧ s.sp.val = 16 ∧ f = .stackOverflow) ∨
  (∃ x, i = .addI x ∧ 0xFFF < s.I.toNat + (s.readV x).toNat ∧ f = .memoryOutOfBounds (s.I.toNat + (s.readV x).toNat)) ∨
  (∃ x, i = .ldB x ∧ 0xFFF < s.I.toNat + 2 ∧ f = .memoryOutOfBounds (s.I.toNat + 2)) ∨
  (∃ x, (i = .ldMemVx x ∨ i = .ldVxMem x) ∧ 0xFFF < s.I.toNat + x.val ∧ f = .memoryOutOfBounds (s.I.toNat + x.val)) ∨
  (∃ x y n, i = .drw x y n ∧ 0 < n.val ∧ 0xFFF < s.I.toNat + n.val - 1 ∧ f = .memoryOutOfBounds (s.I.toNat + n.val - 1)) ∨
  (∃ x, (i = .skp x ∨ i = .sknp x) ∧ 0xF < (s.readV x).toNat ∧ f = .keyIndexOutOfRange (s.readV x))

/-- Every field at its value after creation or reset, under configuration `c` (R39), the model's draw counter aside. -/
def HasResetValues (c : Config) (t : State) : Prop :=
  (∀ r, t.readV r = 0x00) ∧ t.I = 0x0000 ∧ t.pc = 0x0200 ∧ (∀ j : Fin 16, t.stack[j] = 0x0000) ∧ t.sp.val = 0 ∧
  t.DT = 0x00 ∧ t.ST = 0x00 ∧ (∀ k, t.readKey k = false) ∧ (∀ x y, t.pixel x y = false) ∧ t.curOp = 0x0000 ∧ t.cfg = c ∧
  ∀ a, a ≤ 0xFFF → t.peek a =
    if c.fontBase.val ≤ a ∧ a ≤ c.fontBase.val + 79 then c.fontData.toList.getD (a - c.fontBase.val) 0x00 else 0x00

/-- The sprite at `I` of `n` rows, drawn at the start coordinates `V[x] mod 64`, `V[y] mod 32`, has a 1 bit on pixel (px, py)
(R115, R116, R118). -/
def SpriteCovers (s : State) (x y n : Nibble) (px : Fin 64) (py : Fin 32) : Prop :=
  ∃ row col, row < n.val ∧ col < 8 ∧ (s.peek (s.I.toNat + row)).getLsbD (7 - col) = true ∧
    px.val = ((s.readV x).toNat % 64 + col) % 64 ∧ py.val = ((s.readV y).toNat % 32 + row) % 32

/-- Every sprite byte lies in memory, or there is none (R115, R119). -/
def SpriteInMemory (s : State) (n : Nibble) : Prop := n.val = 0 ∨ s.I.toNat + n.val - 1 ≤ 0xFFF

/-- The registers an instruction may write (R21): `V[x]` (by Fx0A once a key is pressed), `V[0]` to `V[x]`, VF as flag. -/
def MayWriteV (i : Instr) (s : State) (r : Nibble) : Prop :=
  (∃ x kk, (i = .ldByte x kk ∨ i = .addByte x kk ∨ i = .rnd x kk) ∧ r = x) ∨
  (∃ x y, (i = .ldReg x y ∨ i = .orReg x y ∨ i = .andReg x y ∨ i = .xorReg x y) ∧ r = x) ∨
  (∃ x y, (i = .addReg x y ∨ i = .sub x y ∨ i = .shr x y ∨ i = .subn x y ∨ i = .shl x y) ∧ (r = x ∨ r = 15)) ∨
  (∃ x y n, i = .drw x y n ∧ r = 15) ∨
  (∃ x, i = .ldVxDT x ∧ r = x) ∨ (∃ x k, i = .ldVxK x ∧ s.readKey k = true ∧ r = x) ∨
  (∃ x, i = .ldVxMem x ∧ r.val ≤ x.val)

/-- Two states alike but for stack slots at and above `sp` (R38). -/
def AgreeBelowSp (s t : State) : Prop :=
  t = { s with stack := t.stack } ∧ ∀ j : Fin 16, j.val < s.sp.val → t.stack[j] = s.stack[j]

/-- Outcomes alike: the same fault, or next states alike but for dead stack slots. -/
def OutcomesAgree (o p : Host.Outcome State Fault Refusal) : Prop :=
  (∃ s t, o = .next s ∧ p = .next t ∧ AgreeBelowSp s t) ∨ (∃ f, o = .fault f ∧ p = .fault f)

end Sys2Proof.Claims

open Sys2Proof Sys2Proof.Machine Sys2Proof.Claims

/-! ## Encoding -/

/-- Decoding the two bytes of any instruction gives it back, with every operand at every value, and leaves the bytes after it
(30_encoding.md sections 1, 2, 5). -/
def Obligations.EncodedInstructionDecodesBack : Prop :=
  ∀ (i : Instr) (rest : List Byte), decodeBytes (encodeBytes i ++ rest) = .ok (i, rest)

/-- A word decodes to an instruction exactly when it agrees with its canonical word on the bits the dispatch examines or an
operand holds (R67, R69, R71, R81, which the spec derives from R66). -/
def Obligations.WordDecodesIffItsExaminedBitsAgree : Prop :=
  ∀ (w : Word) (i : Instr), decodeWord w = .ok i ↔ w &&& examinedMask i = encode i &&& examinedMask i

/-- The words that decode to nothing are exactly those R78 lists (the spec derives the list from R66-R71). -/
def Obligations.RejectedWordsAreTheUnmappedOnes : Prop :=
  ∀ w : Word, (∃ r, decodeWord w = .error r) ↔ UnmappedWord w

/-- The canonical words of R84 are exactly the encodings of instructions (R81). -/
def Obligations.CanonicalWordsAreTheEncodings : Prop :=
  ∀ w : Word, canonicalWord w = true ↔ ∃ i, encode i = w

/-- Words written from the spec's encodings, one or two of each family, decode to what they stand for. A sanity statement. -/
def Obligations.WrittenWordsDecodeAsTheSpecSays : Prop :=
  decodeBytes [0x00, 0xE0] = .ok (.cls, []) ∧ decodeBytes [0x0F, 0xFE] = .ok (.ret, []) ∧
  decodeBytes [0x23, 0x00] = .ok (.call 0x300, []) ∧ decodeBytes [0x51, 0x27] = .ok (.seReg 1 2, []) ∧
  decodeBytes [0x6A, 0x42] = .ok (.ldByte 0xA 0x42, []) ∧ decodeBytes [0x83, 0xF4] = .ok (.addReg 3 0xF, []) ∧
  decodeBytes [0xA2, 0x50] = .ok (.ldI 0x250, []) ∧ decodeBytes [0xD1, 0x25] = .ok (.drw 1 2 5, []) ∧
  decodeBytes [0xE0, 0xA1] = .ok (.sknp 0, []) ∧ decodeBytes [0xF1, 0x65] = .ok (.ldVxMem 1, [])

/-! ## The cycle -/

/-- When the two bytes at `pc` decode to an instruction, a step is its handler on the fetched and advanced state, then the timer
step (R73-R77; the fetch check is the spec's decision D4, the timer step its D3). -/
def Obligations.StepRunsTheDecodedInstruction : Prop :=
  ∀ (s : State) (i : Instr), s.pc.toNat ≤ 0xFFE →
    decodeBytes [s.peek s.pc.toNat, s.peek (s.pc.toNat + 1)] = .ok (i, []) →
    step s = match exec i (fetched s) with
      | .next t => .next (timersAfter t)
      | .fault f => .fault f
      | .refused r => .refused r

/-- The whole cycle, path by path: the outcome it returns and the state it leaves (R77, with the spec's decisions D3, D4, D7
and D8). -/
def Obligations.CycleFollowsItsFiveSteps : Prop :=
  ∀ s : State,
    (0xFFE < s.pc.toNat → cycle s = ⟨.returned (.fatal (.memoryOutOfBounds s.pc.toNat)), s⟩) ∧
    (s.pc.toNat ≤ 0xFFE → ∀ r, decodeWord (wordAt s) = .error r →
      cycle s = ⟨.returned (.invalidOpcode (wordAt s)), timersAfter (fetched s)⟩) ∧
    (s.pc.toNat ≤ 0xFFE → ∀ i, decodeWord (wordAt s) = .ok i →
      (∃ t, exec i (fetched s) = .next t ∧ cycle s = ⟨.returned .ok, timersAfter t⟩) ∨
      (∃ f, exec i (fetched s) = .fault f ∧ cycle s = ⟨.returned (.fatal f), fetched s⟩))

/-- An unmapped word is a completed no-op: the word is recorded and reported, `pc` moves on by 2, the coupled timers count, and
nothing else changes (R79, R128; the timer step is the spec's decision D8). -/
def Obligations.UnmappedWordIsACompletedNoOp : Prop :=
  ∀ s : State, s.pc.toNat ≤ 0xFFE → UnmappedWord (wordAt s) →
    ∃ t, step s = .next t ∧ cycle s = ⟨.returned (.invalidOpcode (wordAt s)), t⟩ ∧
      t = { s with curOp := t.curOp, pc := t.pc, DT := t.DT, ST := t.ST } ∧ t.curOp = wordAt s ∧ t.pc.toNat = s.pc.toNat + 2 ∧
      t.DT.toNat = (if s.cfg.timerCoupled = true then s.DT.toNat - 1 else s.DT.toNat) ∧
      t.ST.toNat = (if s.cfg.timerCoupled = true then s.ST.toNat - 1 else s.ST.toNat)

/-- A fatal outcome of a handler leaves the fetch and the advance and nothing else, timers included; one of the fetch leaves the
state as it was; the step is a fault either way (R131, the spec's decisions D4, D7 and D29; log 5). -/
def Obligations.FatalOutcomeLeavesOnlyFetchAndAdvance : Prop :=
  ∀ (s : State) (f : Fault), (cycle s).reply = .returned (.fatal f) →
    step s = .fault f ∧ (s.pc.toNat ≤ 0xFFE → (cycle s).state = { s with curOp := wordAt s, pc := s.pc + 2 }) ∧
      (0xFFE < s.pc.toNat → (cycle s).state = s)

/-- A step ends in a fault exactly where the spec names a fatal outcome, with the outcome and the information it names; the fetch
check comes first (R129, R130, R132, R134, with the spec's decisions D4, D10, D11, D15, D30; log 5). -/
def Obligations.StepFaultsExactlyWhereTheSpecSays : Prop :=
  ∀ (s : State) (f : Fault), step s = .fault f ↔
    (0xFFE < s.pc.toNat ∧ f = .memoryOutOfBounds s.pc.toNat) ∨
    (s.pc.toNat ≤ 0xFFE ∧ ∃ i, decodeWord (wordAt s) = .ok i ∧ HandlerRaises i (fetched s) f)

/-- No step is refused: every word has a meaning (R72, R79). -/
def Obligations.StepNeverRefuses : Prop := ∀ (s : State) (r : Refusal), step s ≠ .refused r

/-- A completed cycle counts each timer down once when coupled and not at all otherwise, from the value Fx15 or Fx18 wrote where
that is the instruction (R76, R158; the spec's decisions D3, D8). -/
def Obligations.CompletedCycleCountsTimersOnce : Prop :=
  ∀ s t : State, step s = .next t →
    t.DT.toNat = (match decodeWord (wordAt s) with
      | .ok (.ldDTVx x) => (s.readV x).toNat
      | _ => s.DT.toNat) - (if s.cfg.timerCoupled = true then 1 else 0) ∧
    t.ST.toNat = (match decodeWord (wordAt s) with
      | .ok (.ldSTVx x) => (s.readV x).toNat
      | _ => s.ST.toNat) - (if s.cfg.timerCoupled = true then 1 else 0)

/-- Every successful fetch records its word, and the recorded opcode never changes what the machine does (R36). -/
def Obligations.RecordedOpcodeNeverMatters : Prop :=
  ∀ (s : State) (w : Word),
    (s.pc.toNat ≤ 0xFFE → (cycle s).state.curOp = wordAt s) ∧
    (cycle { s with curOp := w }).reply = (cycle s).reply ∧ step { s with curOp := w } = step s

/-- Stack slots at and above `sp` cannot be observed: states alike but for them step to the same fault or to states alike but
for them (R38, which the spec derives; the slot discipline is its decision D21). -/
def Obligations.DeadStackSlotsAreUnobservable : Prop :=
  ∀ s t : State, AgreeBelowSp s t → OutcomesAgree (step s) (step t)

/-- No sequence of host calls tells states apart that are alike but for dead stack slots: the replies are the same, and the
states left are alike again, so every getter agrees (R38, derived by the spec). That a reset keeps the draw counter is log 4's
choice; nothing here rests on it. -/
def Obligations.HostRunsNeverSeeDeadStackSlots : Prop :=
  ∀ (calls : List HostCall) (s t : State), AgreeBelowSp s t →
    (runCalls s calls).1 = (runCalls t calls).1 ∧ AgreeBelowSp (runCalls s calls).2 (runCalls t calls).2

/-- A jump to its own address changes only the recorded opcode and the timers (R149, the spec's decision D27). -/
def Obligations.SelfJumpStaysInPlace : Prop :=
  ∀ (s : State) (nnn : Addr12), s.pc.toNat ≤ 0xFFE → wordAt s = encode (.jp nnn) → s.pc.toNat = nnn.toNat →
    ∃ t, step s = .next t ∧ t = { s with curOp := wordAt s, DT := t.DT, ST := t.ST }

/-- With no ROM loaded, every cycle from power-up moves `pc` by 2 until it reaches 0x1000, and the next cycle faults (R156,
derived by the spec). -/
def Obligations.RunWithoutRomEndsAtTheTopOfMemory : Prop :=
  ∀ c : Config,
    (∀ k, k ≤ 1792 → ∃ t : State, Host.Core.run Sys2Proof.core k (State.powerUp c) = .next t ∧
      t = { State.powerUp c with pc := t.pc } ∧ t.pc.toNat = 0x200 + 2 * k) ∧
    Host.Core.run Sys2Proof.core 1793 (State.powerUp c) = .fault (Fault.memoryOutOfBounds 0x1000)

/-! ## Invariants -/

/-- The stated bounds and the memory's canonical form hold at power-up under every configuration, so at reset. -/
def Obligations.PowerUpMeetsTheInvariant : Prop := (∀ c : Config, (State.powerUp c).Inv) ∧ State.reset.Inv

/-- Every step keeps them: `I` at most 0xFFF (R23), `pc` at most 0x10FE and stack entries at most 0x1000 (R27), memory
canonical. -/
def Obligations.StepKeepsTheInvariant : Prop := ∀ s t : State, s.Inv → step s = .next t → t.Inv

/-- Every host call keeps them, whatever it returns: a host that goes on after a fatal outcome included (R136). -/
def Obligations.HostCallKeepsTheInvariant : Prop :=
  ∀ (c : HostCall) (s : State), s.Inv → (hostCall c s).state.Inv

/-- No host call changes the configuration (R151). -/
def Obligations.HostCallKeepsTheConfiguration : Prop :=
  ∀ (c : HostCall) (s : State), (hostCall c s).state.cfg = s.cfg

/-! ## Reset and the host's entry points -/

/-- The state at creation, and the state `reset()` leaves from any state, hold the values of R39, memory included (R151-R153). -/
def Obligations.CreationAndResetGiveTheStatedValues : Prop :=
  (∀ c : Config, HasResetValues c (State.powerUp c)) ∧
  (∀ s : State, (hostReset s).reply = .silent ∧ HasResetValues s.cfg (hostReset s).state)

/-- `load` copies at most 3584 bytes to 0x200 and changes nothing else; a longer ROM is rejected with no change (R50, R51, R133;
the frame is the spec's decision D20). -/
def Obligations.LoadCopiesTheRomOrNothing : Prop :=
  ∀ (bytes : List Byte) (s : State),
    (bytes.length ≤ 3584 → ∃ t, hostLoad bytes s = ⟨.returned .ok, t⟩ ∧ t = { s with mem := t.mem } ∧
      ∀ a, t.peek a = if 0x200 ≤ a ∧ a < 0x200 + bytes.length then bytes.getD (a - 0x200) 0 else s.peek a) ∧
    (3584 < bytes.length → hostLoad bytes s = ⟨.returned .romTooLarge, s⟩)

/-- `set_key` writes one key; an index outside 0..15 changes nothing (R145, the spec's decision D37). -/
def Obligations.SetKeyWritesOneKey : Prop :=
  ∀ (index : Nat) (pressed : Bool) (s : State),
    (index < 16 → ∃ t, hostSetKey index pressed s = ⟨.silent, t⟩ ∧ t = { s with key := t.key } ∧
      ∀ k : Nibble, t.readKey k = if k.val = index then pressed else s.readKey k) ∧
    (16 ≤ index → hostSetKey index pressed s = ⟨.refused (.keyIndex index), s⟩)

/-- `tick_timers()` counts both timers down by one, stopping at 0, whatever `TIMER_COUPLED` is; n of them count by
n (R140, R141; that `tick_timers()` runs the timer step under either coupling is the spec's decision D3, the n-fold clause is
derived). -/
def Obligations.TimerTicksCountDownToZero : Prop :=
  ∀ s : State, (∃ t, hostTickTimers s = ⟨.silent, t⟩ ∧ t = { s with DT := t.DT, ST := t.ST } ∧
      t.DT.toNat = s.DT.toNat - 1 ∧ t.ST.toNat = s.ST.toNat - 1) ∧
    ∀ n : Nat, (runCalls s (List.replicate n .tickTimers)).2.DT.toNat = s.DT.toNat - n ∧
      (runCalls s (List.replicate n .tickTimers)).2.ST.toNat = s.ST.toNat - n

/-- `get_framebuffer()` is the whole grid, row by row: pixel (x, y) at flat index `y * 64 + x` (R35, R41; the
spec's decision D24). -/
def Obligations.FramebufferSnapshotIsRowByRow : Prop :=
  ∀ s : State, (getFramebuffer s).length = 2048 ∧
    ∀ (x : Fin 64) (y : Fin 32), (getFramebuffer s)[y.val * 64 + x.val]? = some (s.pixel x y)

/-- A byte written is read back; every other byte keeps its value; an address above 0xFFF fails both ways (R44, R58). -/
def Obligations.MemoryReadsBackWhatWasWritten : Prop :=
  ∀ (s : State) (a : Nat) (v : Byte),
    (a ≤ 0xFFF → ∃ t, memWrite s a v = .ok t ∧ memRead t a = .ok v ∧ t = { s with mem := t.mem } ∧
      ∀ b, b ≠ a → memRead t b = memRead s b) ∧
    (0xFFF < a → memWrite s a v = .error (.memoryOutOfBounds a) ∧ memRead s a = .error (.memoryOutOfBounds a))

/-! ## Control flow -/

/-- 00EE pops the stack into `pc`, the slot keeping its value; with an empty stack the cycle ends in `StackUnderflow` and leaves
the fetch and the advance only (R86, R131; the slot discipline is the spec's decision D21, what a fatal outcome leaves its D7). -/
def Obligations.ReturnPopsTheCallStack : Prop :=
  ∀ s : State,
    (∀ j : Fin 16, s.sp.val = j.val + 1 → Completes .ret s fun t =>
      t = { s with pc := t.pc, sp := t.sp } ∧ t.pc = s.stack[j] ∧ t.sp.val = j.val) ∧
    (s.sp.val = 0 → exec .ret s = .fault .stackUnderflow) ∧
    (s.sp.val = 0 → s.pc.toNat ≤ 0xFFE → decodeWord (wordAt s) = .ok .ret →
      cycle s = ⟨.returned (.fatal .stackUnderflow), fetched s⟩)

/-- 2nnn pushes the advanced `pc` and jumps; with a full stack the cycle ends in `StackOverflow` and leaves the fetch and the
advance only (R88, R131; the slot discipline is the spec's decision D21, what a fatal outcome leaves its D7). -/
def Obligations.CallPushesTheAdvancedPcAndJumps : Prop :=
  ∀ (s : State) (nnn : Addr12),
    (s.sp.val < 16 → Completes (.call nnn) s fun t =>
      t = { s with pc := t.pc, sp := t.sp, stack := t.stack } ∧ t.pc.toNat = nnn.toNat ∧ t.sp.val = s.sp.val + 1 ∧
        ∀ j : Fin 16, t.stack[j] = if j.val = s.sp.val then s.pc else s.stack[j]) ∧
    (s.sp.val = 16 → exec (.call nnn) s = .fault .stackOverflow) ∧
    (s.sp.val = 16 → s.pc.toNat ≤ 0xFFE → decodeWord (wordAt s) = .ok (.call nnn) →
      cycle s = ⟨.returned (.fatal .stackOverflow), fetched s⟩)

/-- A return from any state with the stack a call left comes back to the address after the call (R86, R88). -/
def Obligations.CallThenReturnComesBack : Prop :=
  ∀ (s t u : State) (nnn : Addr12), exec (.call nnn) s = .next t → u.stack = t.stack → u.sp = t.sp →
    Completes .ret u fun v => v.pc = s.pc ∧ v.sp = s.sp

/-- 1nnn jumps to nnn; Bnnn to the exact sum of V0 and nnn, never wrapped; nothing else changes (R87, R93). -/
def Obligations.JumpsGoToTheirTargets : Prop :=
  ∀ (s : State) (nnn : Addr12),
    (Completes (.jp nnn) s fun t => t = { s with pc := t.pc } ∧ t.pc.toNat = nnn.toNat) ∧
    (Completes (.jpV0 nnn) s fun t => t = { s with pc := t.pc } ∧ t.pc.toNat = (s.readV 0).toNat + nnn.toNat)

/-- The four skips add 2 to `pc` exactly when their condition holds and change nothing else (R89-R92). -/
def Obligations.SkipsAddTwoWhenTheirConditionHolds : Prop :=
  ∀ (s : State) (x y : Nibble) (kk : Byte),
    OnlyPc (.seByte x kk) s (if s.readV x = kk then s.pc + 2 else s.pc) ∧
    OnlyPc (.sneByte x kk) s (if s.readV x = kk then s.pc else s.pc + 2) ∧
    OnlyPc (.seReg x y) s (if s.readV x = s.readV y then s.pc + 2 else s.pc) ∧
    OnlyPc (.sneReg x y) s (if s.readV x = s.readV y then s.pc else s.pc + 2)

/-! ## Registers and ALU -/

/-- 6xkk, 7xkk and 8xy0 write `V[x]` only: the immediate, the sum modulo 256 with no flag, the copy (R94-R96). -/
def Obligations.LoadsAndAddImmediateWriteOneRegister : Prop :=
  ∀ (s : State) (x y : Nibble) (kk : Byte),
    OnlyRegisters (.ldByte x kk) s (fun r => if r = x then kk else s.readV r) ∧
    OnlyRegisters (.addByte x kk) s
      (fun r => if r = x then BitVec.ofNat 8 (((s.readV x).toNat + kk.toNat) % 256) else s.readV r) ∧
    OnlyRegisters (.ldReg x y) s (fun r => if r = x then s.readV y else s.readV r)

/-- 8xy1, 8xy2, 8xy3 write the bitwise result to `V[x]` and nothing else, VF included (R97-R99). -/
def Obligations.LogicWritesTheBitwiseResultOnly : Prop :=
  ∀ (s : State) (x y : Nibble),
    (Completes (.orReg x y) s fun t => t = { s with V := t.V } ∧ (∀ r, r ≠ x → t.readV r = s.readV r) ∧
      ∀ k < 8, (t.readV x).getLsbD k = ((s.readV x).getLsbD k || (s.readV y).getLsbD k)) ∧
    (Completes (.andReg x y) s fun t => t = { s with V := t.V } ∧ (∀ r, r ≠ x → t.readV r = s.readV r) ∧
      ∀ k < 8, (t.readV x).getLsbD k = ((s.readV x).getLsbD k && (s.readV y).getLsbD k)) ∧
    (Completes (.xorReg x y) s fun t => t = { s with V := t.V } ∧ (∀ r, r ≠ x → t.readV r = s.readV r) ∧
      ∀ k < 8, (t.readV x).getLsbD k = ((s.readV x).getLsbD k != (s.readV y).getLsbD k))

/-- 8xy4: the sum modulo 256, VF the carry, the result overwriting the flag when x = 0xF (R100). -/
def Obligations.AddRegisterGivesSumAndCarry : Prop :=
  ∀ (s : State) (x y : Nibble),
    FlagAndResult (.addReg x y) s x (((s.readV x).toNat + (s.readV y).toNat) % 256)
      (if 255 < (s.readV x).toNat + (s.readV y).toNat then 1 else 0)

/-- 8xy5 and 8xy7: the difference modulo 256, VF 1 exactly when the minuend is strictly greater (R101, R103). -/
def Obligations.SubtractionsGiveDifferenceAndStrictFlag : Prop :=
  ∀ (s : State) (x y : Nibble),
    FlagAndResult (.sub x y) s x (((s.readV x).toNat + 256 - (s.readV y).toNat) % 256)
      (if (s.readV y).toNat < (s.readV x).toNat then 1 else 0) ∧
    FlagAndResult (.subn x y) s x (((s.readV y).toNat + 256 - (s.readV x).toNat) % 256)
      (if (s.readV x).toNat < (s.readV y).toNat then 1 else 0)

/-- 8xy6 and 8xyE shift `V[x]` by one, the bit shifted out going to VF; `V[y]` is not read (R102, R104). -/
def Obligations.ShiftsGiveResultAndShiftedOutBit : Prop :=
  ∀ (s : State) (x y : Nibble),
    FlagAndResult (.shr x y) s x ((s.readV x).toNat / 2) ((s.readV x).toNat % 2) ∧
    FlagAndResult (.shl x y) s x ((s.readV x).toNat * 2 % 256) ((s.readV x).toNat / 128)

/-- Cxkk writes the free draw masked by kk, for whatever the draw is, and takes one draw (R105, R107). The draw counter is the
model's own (log 4); nothing here rests on its value. -/
def Obligations.RandomMasksOneFreeDraw : Prop :=
  ∀ (s : State) (x : Nibble) (kk : Byte),
    (Completes (.rnd x kk) s fun t => t = { s with V := t.V, drawCount := t.drawCount } ∧ t.drawCount = s.drawCount + 1 ∧
      ∀ r, t.readV r = if r = x then Config.draw8 s.drawCount &&& kk else s.readV r) ∧
    ∀ draw : Byte, rndWith draw x kk s = { s with V := (rndWith draw x kk s).V, drawCount := s.drawCount + 1 } ∧
      ∀ r, (rndWith draw x kk s).readV r = if r = x then draw &&& kk else s.readV r

/-- No instruction but Cxkk takes a draw (R107). -/
def Obligations.OnlyRandomTakesADraw : Prop :=
  ∀ (i : Instr) (s t : State), exec i s = .next t → (∀ x kk, i ≠ .rnd x kk) → t.drawCount = s.drawCount

/-! ## Index register and memory -/

/-- Annn and Fx29 write `I` only: nnn, and `FONT_BASE + 5 * V[x]` unmasked (R108, R110; no mask is the spec's decision
D17). -/
def Obligations.IndexLoadsWriteTheirAddress : Prop :=
  ∀ (s : State) (nnn : Addr12) (x : Nibble),
    (Completes (.ldI nnn) s fun t => t = { s with I := t.I } ∧ t.I.toNat = nnn.toNat) ∧
    (Completes (.ldF x) s fun t => t = { s with I := t.I } ∧ t.I.toNat = s.cfg.fontBase.val + 5 * (s.readV x).toNat)

/-- Fx1E adds `V[x]` to `I` when the sum is an address, and else faults with the sum; VF never changes (R109; the check
here is the spec's decision D11). -/
def Obligations.AddToIndexIsExactOrFaults : Prop :=
  ∀ (s : State) (x : Nibble),
    (s.I.toNat + (s.readV x).toNat ≤ 0xFFF → Completes (.addI x) s fun t =>
      t = { s with I := t.I } ∧ t.I.toNat = s.I.toNat + (s.readV x).toNat) ∧
    (0xFFF < s.I.toNat + (s.readV x).toNat →
      exec (.addI x) s = .fault (.memoryOutOfBounds (s.I.toNat + (s.readV x).toNat)))

/-- Fx33 stores hundreds, tens and ones at `I`, `I + 1`, `I + 2`; every other byte and all else stay; past memory it faults (R111). -/
def Obligations.DecimalDigitsAreStoredAtIndex : Prop :=
  ∀ (s : State) (x : Nibble),
    (s.I.toNat + 2 ≤ 0xFFF → Completes (.ldB x) s fun t => t = { s with mem := t.mem } ∧
      (t.peek s.I.toNat).toNat = (s.readV x).toNat / 100 ∧ (t.peek (s.I.toNat + 1)).toNat = (s.readV x).toNat / 10 % 10 ∧
      (t.peek (s.I.toNat + 2)).toNat = (s.readV x).toNat % 10 ∧
      ∀ a, (a < s.I.toNat ∨ s.I.toNat + 2 < a) → t.peek a = s.peek a) ∧
    (0xFFF < s.I.toNat + 2 → exec (.ldB x) s = .fault (.memoryOutOfBounds (s.I.toNat + 2)))

/-- Fx55 stores V0 to Vx inclusive from `I`; every other byte and all else, `I` included, stay; past memory it faults (R112;
the spec's decisions D10, D12). -/
def Obligations.RegistersAreStoredFromIndex : Prop :=
  ∀ (s : State) (x : Nibble),
    (s.I.toNat + x.val ≤ 0xFFF → Completes (.ldMemVx x) s fun t => t = { s with mem := t.mem } ∧
      (∀ k : Nibble, k.val ≤ x.val → t.peek (s.I.toNat + k.val) = s.readV k) ∧
      ∀ a, (a < s.I.toNat ∨ s.I.toNat + x.val < a) → t.peek a = s.peek a) ∧
    (0xFFF < s.I.toNat + x.val → exec (.ldMemVx x) s = .fault (.memoryOutOfBounds (s.I.toNat + x.val)))

/-- Fx65 loads V0 to Vx inclusive from `I`; registers above x and all else, memory and `I` included, stay; past memory it faults
(R113). -/
def Obligations.RegistersAreLoadedFromIndex : Prop :=
  ∀ (s : State) (x : Nibble),
    (s.I.toNat + x.val ≤ 0xFFF → OnlyRegisters (.ldVxMem x) s fun r =>
      if r.val ≤ x.val then s.peek (s.I.toNat + r.val) else s.readV r) ∧
    (0xFFF < s.I.toNat + x.val → exec (.ldVxMem x) s = .fault (.memoryOutOfBounds (s.I.toNat + x.val)))

/-- Storing V0 to Vx and loading them back, whatever happened to the registers between, restores exactly those (R112,
R113; `I` unchanged is the spec's decision D12). -/
def Obligations.StoreThenLoadRestoresRegisters : Prop :=
  ∀ (s t u : State) (x : Nibble), exec (.ldMemVx x) s = .next t → u.mem = t.mem → u.cfg = t.cfg → u.I = t.I →
    Completes (.ldVxMem x) u fun v => ∀ r : Nibble, v.readV r = if r.val ≤ x.val then s.readV r else u.readV r

/-! ## Display -/

/-- 00E0 turns every pixel off and changes nothing else (R114). -/
def Obligations.ClearTurnsEveryPixelOff : Prop :=
  ∀ s : State, Completes .cls s fun t => t = { s with fb := t.fb } ∧ ∀ x y, t.pixel x y = false

/-- Dxyn inverts exactly the pixels under the sprite's 1 bits, wrapped; VF is 1 exactly when one of them was on; nothing else
changes; a sprite byte past memory is a fault with no change (R115-R118). -/
def Obligations.DrawInvertsExactlyTheSpritePixels : Prop :=
  ∀ (s : State) (x y n : Nibble),
    (SpriteInMemory s n → Completes (.drw x y n) s fun t => t = { s with V := t.V, fb := t.fb } ∧
      (∀ px py, SpriteCovers s x y n px py → t.pixel px py = !s.pixel px py) ∧
      (∀ px py, ¬ SpriteCovers s x y n px py → t.pixel px py = s.pixel px py) ∧
      (t.readV 15 = 0 ∨ t.readV 15 = 1) ∧
      (t.readV 15 = 1 ↔ ∃ px py, SpriteCovers s x y n px py ∧ s.pixel px py = true) ∧
      ∀ r, r ≠ 15 → t.readV r = s.readV r) ∧
    (¬ SpriteInMemory s n → exec (.drw x y n) s = .fault (.memoryOutOfBounds (s.I.toNat + n.val - 1)))

/-- With n = 0 nothing is drawn or checked and VF becomes 0 (R119, the spec's decision D13). -/
def Obligations.DrawOfNoRowsOnlyClearsFlag : Prop :=
  ∀ (s : State) (x y : Nibble), OnlyRegisters (.drw x y 0) s fun r => if r = 15 then 0 else s.readV r

/-- The same draw again, with the same sprite and place, puts every pixel back; from an all-off framebuffer the first draw leaves
VF 0 and the second gives 1 when the sprite has a 1 bit (R120, read as log 13 says). -/
def Obligations.SecondDrawRestoresThePixels : Prop :=
  ∀ (s t u : State) (x y n : Nibble), exec (.drw x y n) s = .next t →
    u.fb = t.fb → u.mem = s.mem → u.cfg = s.cfg → u.I = s.I → u.readV x = s.readV x → u.readV y = s.readV y →
    Completes (.drw x y n) u fun v => v.fb = s.fb ∧
      ((∀ px py, s.pixel px py = false) → t.readV 15 = 0 ∧
        (v.readV 15 = 1 ↔ ∃ px py, SpriteCovers s x y n px py))

/-! ## Keypad and timer instructions -/

/-- Ex9E and ExA1 skip on the key `V[x]` names and change nothing else; a value above 0x0F is a fault (R121, R122; the
fault is the spec's decision D15). -/
def Obligations.KeySkipsFollowTheKey : Prop :=
  ∀ (s : State) (x : Nibble),
    (∀ k : Nibble, (s.readV x).toNat = k.val →
      OnlyPc (.skp x) s (if s.readKey k = true then s.pc + 2 else s.pc) ∧
      OnlyPc (.sknp x) s (if s.readKey k = true then s.pc else s.pc + 2)) ∧
    (0x0F < (s.readV x).toNat →
      exec (.skp x) s = .fault (.keyIndexOutOfRange (s.readV x)) ∧ exec (.sknp x) s = .fault (.keyIndexOutOfRange (s.readV x)))

/-- Fx07 copies DT to `V[x]`, Fx15 and Fx18 copy `V[x]` to DT and ST; nothing else changes (R123, R125, R126). -/
def Obligations.TimerMovesCopyOneValue : Prop :=
  ∀ (s : State) (x : Nibble),
    OnlyRegisters (.ldVxDT x) s (fun r => if r = x then s.DT else s.readV r) ∧
    (Completes (.ldDTVx x) s fun t => t = { s with DT := t.DT } ∧ t.DT = s.readV x) ∧
    (Completes (.ldSTVx x) s fun t => t = { s with ST := t.ST } ∧ t.ST = s.readV x)

/-- Fx0A stores the least pressed key in `V[x]`; with none pressed it only takes `pc` back by 2, so the next step runs it again
(R124; the least key is the spec's decision D16). -/
def Obligations.KeyWaitTakesTheLeastKeyOrRepeats : Prop :=
  ∀ (s : State) (x : Nibble),
    (∀ k : Nibble, s.readKey k = true → (∀ j : Nibble, j < k → s.readKey j = false) →
      OnlyRegisters (.ldVxK x) s fun r => if r = x then BitVec.ofNat 8 k.val else s.readV r) ∧
    ((∀ k, s.readKey k = false) → OnlyPc (.ldVxK x) s (s.pc - 2)) ∧
    ((∀ k, s.readKey k = false) → s.pc.toNat ≤ 0xFFE → decodeWord (wordAt s) = .ok (.ldVxK x) →
      ∃ t, step s = .next t ∧ t.pc = s.pc ∧ wordAt t = wordAt s)

/-! ## What no instruction does -/

/-- A handler changes no register but those R21 lists for it. -/
def Obligations.OnlyListedRegistersAreWritten : Prop :=
  ∀ (i : Instr) (s t : State) (r : Nibble), exec i s = .next t → ¬ MayWriteV i s r → t.readV r = s.readV r

/-- A handler changes a byte of memory only by Fx33 in `I`..`I + 2` or by Fx55 in `I`..`I + x` (R55, its writes). -/
def Obligations.OnlyStoresChangeMemory : Prop :=
  ∀ (i : Instr) (s t : State) (a : Nat), exec i s = .next t → t.peek a ≠ s.peek a →
    (∃ x, i = .ldB x ∧ s.I.toNat ≤ a ∧ a ≤ s.I.toNat + 2) ∨
    (∃ x, i = .ldMemVx x ∧ s.I.toNat ≤ a ∧ a ≤ s.I.toNat + x.val)

/-- A handler changes `I`, the stack, the timers or the pixels only where the spec says so, and never the keys, the recorded
opcode or the configuration (R22, R29, R32-R34, R36). -/
def Obligations.OtherStateChangesOnlyWhereTheSpecSays : Prop :=
  ∀ (i : Instr) (s t : State), exec i s = .next t →
    (t.I ≠ s.I → (∃ nnn, i = .ldI nnn) ∨ (∃ x, i = .addI x) ∨ (∃ x, i = .ldF x)) ∧
    (t.sp ≠ s.sp → i = .ret ∨ ∃ nnn, i = .call nnn) ∧ (t.stack ≠ s.stack → ∃ nnn, i = .call nnn) ∧
    (t.DT ≠ s.DT → ∃ x, i = .ldDTVx x) ∧ (t.ST ≠ s.ST → ∃ x, i = .ldSTVx x) ∧
    (t.fb ≠ s.fb → i = .cls ∨ ∃ x y n, i = .drw x y n) ∧ t.key = s.key ∧ t.curOp = s.curOp ∧ t.cfg = s.cfg

/-- The ways a handler changes `pc` (R25). -/
def Obligations.PcChangesOnlyInTheListedWays : Prop :=
  ∀ (i : Instr) (s t : State), exec i s = .next t → t.pc ≠ s.pc →
    (t.pc = s.pc + 2 ∧ ((∃ x kk, i = .seByte x kk ∨ i = .sneByte x kk) ∨ (∃ x y, i = .seReg x y ∨ i = .sneReg x y) ∨
      ∃ x, i = .skp x ∨ i = .sknp x)) ∨
    (∃ nnn, (i = .jp nnn ∨ i = .call nnn) ∧ t.pc.toNat = nnn.toNat) ∨
    (∃ nnn, i = .jpV0 nnn ∧ t.pc.toNat = (s.readV 0).toNat + nnn.toNat) ∨
    (i = .ret ∧ ∃ j : Fin 16, s.sp.val = j.val + 1 ∧ t.pc = s.stack[j]) ∨
    (∃ x, i = .ldVxK x ∧ t.pc = s.pc - 2 ∧ ∀ k, s.readKey k = false)
end

