-- ==== Sys2Proof/Laws/Memory.lean ====
section
/-! SUPPORT. Memory reads back what was written, other addresses keep their bytes, every write keeps the canonical form, and
canonical memories that read alike are equal. -/

namespace Sys2Proof.Machine

variable {c : Config} {m m' : Memory} {a b : Nat} {v : Byte}

theorem Memory.lookup_insert (m : Memory) (a b : Nat) (v : Byte) :
    Memory.lookup (Memory.insert m a v) b = if b = a then some v else Memory.lookup m b := by
  induction m with
  | nil => simp [Memory.insert, Memory.lookup]
  | cons p rest ih =>
    obtain ⟨k, u⟩ := p
    simp only [Memory.insert]
    split
    · simp [Memory.lookup]
    · split
      · subst a; simp only [Memory.lookup]; split <;> rfl
      · simp only [Memory.lookup, ih]
        by_cases hb : b = k
        · subst b; simp; omega
        · simp [hb]

theorem Memory.lookup_erase (m : Memory) (a b : Nat) :
    Memory.lookup (Memory.erase m a) b = if b = a then none else Memory.lookup m b := by
  induction m with
  | nil => simp [Memory.erase, Memory.lookup]
  | cons p rest ih =>
    obtain ⟨k, u⟩ := p
    simp only [Memory.erase, List.filter_cons] at ih ⊢
    by_cases hk : k = a
    · subst k; simp only [bne_self_eq_false, Bool.false_eq_true, if_false, ih, Memory.lookup]; split <;> rfl
    · simp only [bne_iff_ne, ne_eq, hk, not_false_eq_true, if_true, Memory.lookup, ih]
      by_cases hb : b = k
      · subst b; simp [hk]
      · simp [hb]

/-- Read after write, at the written address and at every other (20_memory.md R44, R58). -/
theorem Memory.read_write (c : Config) (m : Memory) (a b : Nat) (v : Byte) :
    Memory.read c (Memory.write c m a v) b = if b = a then v else Memory.read c m b := by
  simp only [Memory.read, Memory.write]
  split
  · rename_i hv
    rw [Memory.lookup_erase]
    by_cases hb : b = a
    · subst b; simp [hv]
    · simp [hb]
  · rw [Memory.lookup_insert]
    by_cases hb : b = a <;> simp [hb]

theorem Memory.mem_insert {p : Host.Cell} (h : p ∈ Memory.insert m a v) : p = (a, v) ∨ p ∈ m := by
  induction m with
  | nil => simpa [Memory.insert] using h
  | cons q rest ih =>
    obtain ⟨k, u⟩ := q
    simp only [Memory.insert] at h
    split at h
    · simpa using h
    · split at h
      · simp at h ⊢; tauto
      · simp only [List.mem_cons] at h ⊢
        rcases h with h | h
        · exact .inr (.inl h)
        · exact (ih h).imp id .inr

theorem Memory.mem_erase {p : Host.Cell} (h : p ∈ Memory.erase m a) : p ∈ m := (List.mem_filter.1 h).1

theorem Memory.insert_rising (h : m.Pairwise (fun p q => p.1 < q.1)) :
    (Memory.insert m a v).Pairwise (fun p q => p.1 < q.1) := by
  induction m with
  | nil => simp [Memory.insert]
  | cons q rest ih =>
    obtain ⟨k, u⟩ := q
    obtain ⟨hk, hr⟩ := List.pairwise_cons.1 h
    simp only [Memory.insert]
    split
    · refine List.pairwise_cons.2 ⟨fun p hp => ?_, h⟩
      rcases List.mem_cons.1 hp with rfl | hp
      · assumption
      · have := hk p hp; simp at this ⊢; omega
    · split
      · subst a; exact List.pairwise_cons.2 ⟨hk, hr⟩
      · refine List.pairwise_cons.2 ⟨fun p hp => ?_, ih hr⟩
        rcases Memory.mem_insert hp with rfl | hp
        · simp; omega
        · exact hk p hp

theorem Memory.erase_rising (h : m.Pairwise (fun p q => p.1 < q.1)) :
    (Memory.erase m a).Pairwise (fun p q => p.1 < q.1) := h.filter _

/-- A write to an address of the memory keeps the canonical form. -/
theorem Memory.write_wf (h : Memory.wf c m) (ha : a < memSize) (v : Byte) : Memory.wf c (Memory.write c m a v) := by
  simp only [Memory.write]
  split
  · exact ⟨Memory.erase_rising h.1, fun p hp => h.2 p (Memory.mem_erase hp)⟩
  · rename_i hv
    refine ⟨Memory.insert_rising h.1, fun p hp => ?_⟩
    rcases Memory.mem_insert hp with rfl | hp
    · exact ⟨ha, hv⟩
    · exact h.2 p hp

/-- Memory with nothing listed is canonical. -/
theorem Memory.wf_nil (c : Config) : Memory.wf c [] := by simp [Memory.wf]

/-- A listed cell is what the canonical memory reads at its address. -/
theorem Memory.lookup_of_mem {p : Host.Cell} (h : m.Pairwise (fun p q => p.1 < q.1)) (hp : p ∈ m) :
    Memory.lookup m p.1 = some p.2 := by
  induction m with
  | nil => simp at hp
  | cons q rest ih =>
    obtain ⟨k, u⟩ := q
    obtain ⟨hk, hr⟩ := List.pairwise_cons.1 h
    simp only [Memory.lookup]
    rcases List.mem_cons.1 hp with rfl | hp
    · simp
    · have := hk p hp
      simp only at this
      rw [if_neg (by omega)]
      exact ih hr hp

theorem Memory.mem_of_lookup (h : Memory.lookup m a = some v) : (a, v) ∈ m := by
  induction m with
  | nil => simp [Memory.lookup] at h
  | cons q rest ih =>
    obtain ⟨k, u⟩ := q
    simp only [Memory.lookup] at h
    split at h
    · simp_all
    · exact List.mem_cons_of_mem _ (ih h)

/-- A canonical memory lists a cell exactly when it reads so there and reset would not. -/
theorem Memory.mem_iff_read (h : Memory.wf c m) : (a, v) ∈ m ↔ Memory.read c m a = v ∧ v ≠ resetByte c a := by
  constructor
  · intro hm
    have := Memory.lookup_of_mem h.1 hm
    exact ⟨by simp only [Memory.read, this, Option.getD_some], (h.2 _ hm).2⟩
  · rintro ⟨hr, hv⟩
    cases hl : Memory.lookup m a with
    | none => simp [Memory.read, hl] at hr; exact absurd hr.symm hv
    | some u =>
      have : u = v := by simpa [Memory.read, hl] using hr
      exact this ▸ Memory.mem_of_lookup hl

theorem Memory.nodup_of_rising (h : m.Pairwise (fun p q => p.1 < q.1)) : m.Nodup :=
  h.imp fun hpq he => by simp [he] at hpq

/-- Canonical memories that read alike everywhere are equal: equal contents are equal data. -/
theorem Memory.ext_of_wf (h : Memory.wf c m) (h' : Memory.wf c m') (he : ∀ a, Memory.read c m a = Memory.read c m' a) :
    m = m' := by
  have hp : m.Perm m' := (List.perm_ext_iff_of_nodup (Memory.nodup_of_rising h.1) (Memory.nodup_of_rising h'.1)).2
    fun ⟨a, v⟩ => by rw [Memory.mem_iff_read h, Memory.mem_iff_read h', he]
  exact hp.eq_of_pairwise (fun p q _ _ h1 h2 => by omega) h.1 h'.1

end Sys2Proof.Machine
end

