-- ==== Sys2Proof/Laws/State.lean ====
section
/-! SUPPORT. What each named update of State leaves in each field, one lemma per field per update, true by rfl. -/

namespace Sys2Proof.Machine

variable (s : State)

@[simp] theorem State.writeV_V (x : Nibble) (v : Byte) : (s.writeV x v).V = s.V.set x.val v x.isLt := rfl
@[simp] theorem State.writeV_I (x : Nibble) (v : Byte) : (s.writeV x v).I = s.I := rfl
@[simp] theorem State.writeV_pc (x : Nibble) (v : Byte) : (s.writeV x v).pc = s.pc := rfl
@[simp] theorem State.writeV_stack (x : Nibble) (v : Byte) : (s.writeV x v).stack = s.stack := rfl
@[simp] theorem State.writeV_sp (x : Nibble) (v : Byte) : (s.writeV x v).sp = s.sp := rfl
@[simp] theorem State.writeV_DT (x : Nibble) (v : Byte) : (s.writeV x v).DT = s.DT := rfl
@[simp] theorem State.writeV_ST (x : Nibble) (v : Byte) : (s.writeV x v).ST = s.ST := rfl
@[simp] theorem State.writeV_key (x : Nibble) (v : Byte) : (s.writeV x v).key = s.key := rfl
@[simp] theorem State.writeV_fb (x : Nibble) (v : Byte) : (s.writeV x v).fb = s.fb := rfl
@[simp] theorem State.writeV_curOp (x : Nibble) (v : Byte) : (s.writeV x v).curOp = s.curOp := rfl
@[simp] theorem State.writeV_mem (x : Nibble) (v : Byte) : (s.writeV x v).mem = s.mem := rfl
@[simp] theorem State.writeV_cfg (x : Nibble) (v : Byte) : (s.writeV x v).cfg = s.cfg := rfl
@[simp] theorem State.writeV_drawCount (x : Nibble) (v : Byte) : (s.writeV x v).drawCount = s.drawCount := rfl

@[simp] theorem State.writeI_V (a : Nat) : (s.writeI a).V = s.V := rfl
@[simp] theorem State.writeI_I (a : Nat) : (s.writeI a).I = BitVec.ofNat 16 a := rfl
@[simp] theorem State.writeI_pc (a : Nat) : (s.writeI a).pc = s.pc := rfl
@[simp] theorem State.writeI_stack (a : Nat) : (s.writeI a).stack = s.stack := rfl
@[simp] theorem State.writeI_sp (a : Nat) : (s.writeI a).sp = s.sp := rfl
@[simp] theorem State.writeI_DT (a : Nat) : (s.writeI a).DT = s.DT := rfl
@[simp] theorem State.writeI_ST (a : Nat) : (s.writeI a).ST = s.ST := rfl
@[simp] theorem State.writeI_key (a : Nat) : (s.writeI a).key = s.key := rfl
@[simp] theorem State.writeI_fb (a : Nat) : (s.writeI a).fb = s.fb := rfl
@[simp] theorem State.writeI_curOp (a : Nat) : (s.writeI a).curOp = s.curOp := rfl
@[simp] theorem State.writeI_mem (a : Nat) : (s.writeI a).mem = s.mem := rfl
@[simp] theorem State.writeI_cfg (a : Nat) : (s.writeI a).cfg = s.cfg := rfl
@[simp] theorem State.writeI_drawCount (a : Nat) : (s.writeI a).drawCount = s.drawCount := rfl

@[simp] theorem State.writePc_V (w : Word) : (s.writePc w).V = s.V := rfl
@[simp] theorem State.writePc_I (w : Word) : (s.writePc w).I = s.I := rfl
@[simp] theorem State.writePc_pc (w : Word) : (s.writePc w).pc = w := rfl
@[simp] theorem State.writePc_stack (w : Word) : (s.writePc w).stack = s.stack := rfl
@[simp] theorem State.writePc_sp (w : Word) : (s.writePc w).sp = s.sp := rfl
@[simp] theorem State.writePc_DT (w : Word) : (s.writePc w).DT = s.DT := rfl
@[simp] theorem State.writePc_ST (w : Word) : (s.writePc w).ST = s.ST := rfl
@[simp] theorem State.writePc_key (w : Word) : (s.writePc w).key = s.key := rfl
@[simp] theorem State.writePc_fb (w : Word) : (s.writePc w).fb = s.fb := rfl
@[simp] theorem State.writePc_curOp (w : Word) : (s.writePc w).curOp = s.curOp := rfl
@[simp] theorem State.writePc_mem (w : Word) : (s.writePc w).mem = s.mem := rfl
@[simp] theorem State.writePc_cfg (w : Word) : (s.writePc w).cfg = s.cfg := rfl
@[simp] theorem State.writePc_drawCount (w : Word) : (s.writePc w).drawCount = s.drawCount := rfl

@[simp] theorem State.writeDT_V (v : Byte) : (s.writeDT v).V = s.V := rfl
@[simp] theorem State.writeDT_I (v : Byte) : (s.writeDT v).I = s.I := rfl
@[simp] theorem State.writeDT_pc (v : Byte) : (s.writeDT v).pc = s.pc := rfl
@[simp] theorem State.writeDT_stack (v : Byte) : (s.writeDT v).stack = s.stack := rfl
@[simp] theorem State.writeDT_sp (v : Byte) : (s.writeDT v).sp = s.sp := rfl
@[simp] theorem State.writeDT_DT (v : Byte) : (s.writeDT v).DT = v := rfl
@[simp] theorem State.writeDT_ST (v : Byte) : (s.writeDT v).ST = s.ST := rfl
@[simp] theorem State.writeDT_key (v : Byte) : (s.writeDT v).key = s.key := rfl
@[simp] theorem State.writeDT_fb (v : Byte) : (s.writeDT v).fb = s.fb := rfl
@[simp] theorem State.writeDT_curOp (v : Byte) : (s.writeDT v).curOp = s.curOp := rfl
@[simp] theorem State.writeDT_mem (v : Byte) : (s.writeDT v).mem = s.mem := rfl
@[simp] theorem State.writeDT_cfg (v : Byte) : (s.writeDT v).cfg = s.cfg := rfl
@[simp] theorem State.writeDT_drawCount (v : Byte) : (s.writeDT v).drawCount = s.drawCount := rfl

@[simp] theorem State.writeST_V (v : Byte) : (s.writeST v).V = s.V := rfl
@[simp] theorem State.writeST_I (v : Byte) : (s.writeST v).I = s.I := rfl
@[simp] theorem State.writeST_pc (v : Byte) : (s.writeST v).pc = s.pc := rfl
@[simp] theorem State.writeST_stack (v : Byte) : (s.writeST v).stack = s.stack := rfl
@[simp] theorem State.writeST_sp (v : Byte) : (s.writeST v).sp = s.sp := rfl
@[simp] theorem State.writeST_DT (v : Byte) : (s.writeST v).DT = s.DT := rfl
@[simp] theorem State.writeST_ST (v : Byte) : (s.writeST v).ST = v := rfl
@[simp] theorem State.writeST_key (v : Byte) : (s.writeST v).key = s.key := rfl
@[simp] theorem State.writeST_fb (v : Byte) : (s.writeST v).fb = s.fb := rfl
@[simp] theorem State.writeST_curOp (v : Byte) : (s.writeST v).curOp = s.curOp := rfl
@[simp] theorem State.writeST_mem (v : Byte) : (s.writeST v).mem = s.mem := rfl
@[simp] theorem State.writeST_cfg (v : Byte) : (s.writeST v).cfg = s.cfg := rfl
@[simp] theorem State.writeST_drawCount (v : Byte) : (s.writeST v).drawCount = s.drawCount := rfl

@[simp] theorem State.writeKey_V (k : Nibble) (p : Bool) : (s.writeKey k p).V = s.V := rfl
@[simp] theorem State.writeKey_I (k : Nibble) (p : Bool) : (s.writeKey k p).I = s.I := rfl
@[simp] theorem State.writeKey_pc (k : Nibble) (p : Bool) : (s.writeKey k p).pc = s.pc := rfl
@[simp] theorem State.writeKey_stack (k : Nibble) (p : Bool) : (s.writeKey k p).stack = s.stack := rfl
@[simp] theorem State.writeKey_sp (k : Nibble) (p : Bool) : (s.writeKey k p).sp = s.sp := rfl
@[simp] theorem State.writeKey_DT (k : Nibble) (p : Bool) : (s.writeKey k p).DT = s.DT := rfl
@[simp] theorem State.writeKey_ST (k : Nibble) (p : Bool) : (s.writeKey k p).ST = s.ST := rfl
@[simp] theorem State.writeKey_key (k : Nibble) (p : Bool) : (s.writeKey k p).key = s.key.set k.val p k.isLt := rfl
@[simp] theorem State.writeKey_fb (k : Nibble) (p : Bool) : (s.writeKey k p).fb = s.fb := rfl
@[simp] theorem State.writeKey_curOp (k : Nibble) (p : Bool) : (s.writeKey k p).curOp = s.curOp := rfl
@[simp] theorem State.writeKey_mem (k : Nibble) (p : Bool) : (s.writeKey k p).mem = s.mem := rfl
@[simp] theorem State.writeKey_cfg (k : Nibble) (p : Bool) : (s.writeKey k p).cfg = s.cfg := rfl
@[simp] theorem State.writeKey_drawCount (k : Nibble) (p : Bool) : (s.writeKey k p).drawCount = s.drawCount := rfl

@[simp] theorem State.writeFb_V (f : Framebuffer) : (s.writeFb f).V = s.V := rfl
@[simp] theorem State.writeFb_I (f : Framebuffer) : (s.writeFb f).I = s.I := rfl
@[simp] theorem State.writeFb_pc (f : Framebuffer) : (s.writeFb f).pc = s.pc := rfl
@[simp] theorem State.writeFb_stack (f : Framebuffer) : (s.writeFb f).stack = s.stack := rfl
@[simp] theorem State.writeFb_sp (f : Framebuffer) : (s.writeFb f).sp = s.sp := rfl
@[simp] theorem State.writeFb_DT (f : Framebuffer) : (s.writeFb f).DT = s.DT := rfl
@[simp] theorem State.writeFb_ST (f : Framebuffer) : (s.writeFb f).ST = s.ST := rfl
@[simp] theorem State.writeFb_key (f : Framebuffer) : (s.writeFb f).key = s.key := rfl
@[simp] theorem State.writeFb_fb (f : Framebuffer) : (s.writeFb f).fb = f := rfl
@[simp] theorem State.writeFb_curOp (f : Framebuffer) : (s.writeFb f).curOp = s.curOp := rfl
@[simp] theorem State.writeFb_mem (f : Framebuffer) : (s.writeFb f).mem = s.mem := rfl
@[simp] theorem State.writeFb_cfg (f : Framebuffer) : (s.writeFb f).cfg = s.cfg := rfl
@[simp] theorem State.writeFb_drawCount (f : Framebuffer) : (s.writeFb f).drawCount = s.drawCount := rfl

@[simp] theorem State.poke_V (a : Nat) (v : Byte) : (s.poke a v).V = s.V := rfl
@[simp] theorem State.poke_I (a : Nat) (v : Byte) : (s.poke a v).I = s.I := rfl
@[simp] theorem State.poke_pc (a : Nat) (v : Byte) : (s.poke a v).pc = s.pc := rfl
@[simp] theorem State.poke_stack (a : Nat) (v : Byte) : (s.poke a v).stack = s.stack := rfl
@[simp] theorem State.poke_sp (a : Nat) (v : Byte) : (s.poke a v).sp = s.sp := rfl
@[simp] theorem State.poke_DT (a : Nat) (v : Byte) : (s.poke a v).DT = s.DT := rfl
@[simp] theorem State.poke_ST (a : Nat) (v : Byte) : (s.poke a v).ST = s.ST := rfl
@[simp] theorem State.poke_key (a : Nat) (v : Byte) : (s.poke a v).key = s.key := rfl
@[simp] theorem State.poke_fb (a : Nat) (v : Byte) : (s.poke a v).fb = s.fb := rfl
@[simp] theorem State.poke_curOp (a : Nat) (v : Byte) : (s.poke a v).curOp = s.curOp := rfl
@[simp] theorem State.poke_mem (a : Nat) (v : Byte) : (s.poke a v).mem = Memory.write s.cfg s.mem a v := rfl
@[simp] theorem State.poke_cfg (a : Nat) (v : Byte) : (s.poke a v).cfg = s.cfg := rfl
@[simp] theorem State.poke_drawCount (a : Nat) (v : Byte) : (s.poke a v).drawCount = s.drawCount := rfl

@[simp] theorem State.advance_V (op : Word) : (s.advance op).V = s.V := rfl
@[simp] theorem State.advance_I (op : Word) : (s.advance op).I = s.I := rfl
@[simp] theorem State.advance_pc (op : Word) : (s.advance op).pc = s.pc + 2 := rfl
@[simp] theorem State.advance_stack (op : Word) : (s.advance op).stack = s.stack := rfl
@[simp] theorem State.advance_sp (op : Word) : (s.advance op).sp = s.sp := rfl
@[simp] theorem State.advance_DT (op : Word) : (s.advance op).DT = s.DT := rfl
@[simp] theorem State.advance_ST (op : Word) : (s.advance op).ST = s.ST := rfl
@[simp] theorem State.advance_key (op : Word) : (s.advance op).key = s.key := rfl
@[simp] theorem State.advance_fb (op : Word) : (s.advance op).fb = s.fb := rfl
@[simp] theorem State.advance_curOp (op : Word) : (s.advance op).curOp = op := rfl
@[simp] theorem State.advance_mem (op : Word) : (s.advance op).mem = s.mem := rfl
@[simp] theorem State.advance_cfg (op : Word) : (s.advance op).cfg = s.cfg := rfl
@[simp] theorem State.advance_drawCount (op : Word) : (s.advance op).drawCount = s.drawCount := rfl

@[simp] theorem State.timerTick_V : s.timerTick.V = s.V := rfl
@[simp] theorem State.timerTick_I : s.timerTick.I = s.I := rfl
@[simp] theorem State.timerTick_pc : s.timerTick.pc = s.pc := rfl
@[simp] theorem State.timerTick_stack : s.timerTick.stack = s.stack := rfl
@[simp] theorem State.timerTick_sp : s.timerTick.sp = s.sp := rfl
@[simp] theorem State.timerTick_DT : s.timerTick.DT = countDown s.DT := rfl
@[simp] theorem State.timerTick_ST : s.timerTick.ST = countDown s.ST := rfl
@[simp] theorem State.timerTick_key : s.timerTick.key = s.key := rfl
@[simp] theorem State.timerTick_fb : s.timerTick.fb = s.fb := rfl
@[simp] theorem State.timerTick_curOp : s.timerTick.curOp = s.curOp := rfl
@[simp] theorem State.timerTick_mem : s.timerTick.mem = s.mem := rfl
@[simp] theorem State.timerTick_cfg : s.timerTick.cfg = s.cfg := rfl
@[simp] theorem State.timerTick_drawCount : s.timerTick.drawCount = s.drawCount := rfl

@[simp] theorem State.countDraw_V : s.countDraw.V = s.V := rfl
@[simp] theorem State.countDraw_I : s.countDraw.I = s.I := rfl
@[simp] theorem State.countDraw_pc : s.countDraw.pc = s.pc := rfl
@[simp] theorem State.countDraw_stack : s.countDraw.stack = s.stack := rfl
@[simp] theorem State.countDraw_sp : s.countDraw.sp = s.sp := rfl
@[simp] theorem State.countDraw_DT : s.countDraw.DT = s.DT := rfl
@[simp] theorem State.countDraw_ST : s.countDraw.ST = s.ST := rfl
@[simp] theorem State.countDraw_key : s.countDraw.key = s.key := rfl
@[simp] theorem State.countDraw_fb : s.countDraw.fb = s.fb := rfl
@[simp] theorem State.countDraw_curOp : s.countDraw.curOp = s.curOp := rfl
@[simp] theorem State.countDraw_mem : s.countDraw.mem = s.mem := rfl
@[simp] theorem State.countDraw_cfg : s.countDraw.cfg = s.cfg := rfl
@[simp] theorem State.countDraw_drawCount : s.countDraw.drawCount = s.drawCount + 1 := rfl

end Sys2Proof.Machine
end

