-- ==== Sys2Proof/Laws/Ops.lean ====
section
/-! SUPPORT. One lemma per shared operation saying all it can do: memory, registers, call stack, fetch, skip, keys, timers. -/

namespace Sys2Proof.Machine

variable (s : State)

/-! ## Reading one byte across the updates -/

theorem State.peek_def (a : Nat) : s.peek a = Memory.read s.cfg s.mem a := rfl

@[simp] theorem State.peek_poke (a b : Nat) (v : Byte) :
    (s.poke a v).peek b = if b = a then v else s.peek b := Memory.read_write s.cfg s.mem a b v

/-- Reading a byte depends on memory and configuration only. -/
theorem State.peek_congr {s t : State} (hm : t.mem = s.mem) (hc : t.cfg = s.cfg) (a : Nat) : t.peek a = s.peek a := by
  simp [State.peek, hm, hc]

@[simp] theorem State.peek_writeV (x : Nibble) (v : Byte) (a : Nat) : (s.writeV x v).peek a = s.peek a := rfl
@[simp] theorem State.peek_writeI (n : Nat) (a : Nat) : (s.writeI n).peek a = s.peek a := rfl
@[simp] theorem State.peek_writePc (w : Word) (a : Nat) : (s.writePc w).peek a = s.peek a := rfl
@[simp] theorem State.peek_writeDT (v : Byte) (a : Nat) : (s.writeDT v).peek a = s.peek a := rfl
@[simp] theorem State.peek_writeST (v : Byte) (a : Nat) : (s.writeST v).peek a = s.peek a := rfl
@[simp] theorem State.peek_writeKey (k : Nibble) (p : Bool) (a : Nat) : (s.writeKey k p).peek a = s.peek a := rfl
@[simp] theorem State.peek_writeFb (f : Framebuffer) (a : Nat) : (s.writeFb f).peek a = s.peek a := rfl
@[simp] theorem State.peek_advance (op : Word) (a : Nat) : (s.advance op).peek a = s.peek a := rfl
@[simp] theorem State.peek_timerTick (a : Nat) : (s.timerTick).peek a = s.peek a := rfl
@[simp] theorem State.peek_countDraw (a : Nat) : (s.countDraw).peek a = s.peek a := rfl

/-! ## Spans of memory -/

/-- A stored span changes memory only. -/
theorem State.pokeList_eq (a : Nat) (bytes : List Byte) :
    s.pokeList a bytes = { s with mem := (s.pokeList a bytes).mem } := by
  induction bytes generalizing s a with
  | nil => rfl
  | cons v rest ih => rw [State.pokeList, ih (s.poke a v) (a + 1)]; rfl

/-- Every byte after a span is stored: the stored byte inside the span, the old byte outside. -/
theorem State.peek_pokeList (a b : Nat) (bytes : List Byte) :
    (s.pokeList a bytes).peek b = if a ≤ b ∧ b < a + bytes.length then bytes.getD (b - a) 0 else s.peek b := by
  induction bytes generalizing s a with
  | nil => simp only [State.pokeList, List.length_nil]; rw [if_neg (by omega)]
  | cons v rest ih =>
    rw [State.pokeList, ih, State.peek_poke, List.length_cons]
    rcases Nat.lt_trichotomy b a with h | h | h
    · rw [if_neg (by omega), if_neg (by omega), if_neg (by omega)]
    · subst h; simp
    · by_cases hin : b < a + (rest.length + 1)
      · rw [if_pos (by omega), if_pos (by omega), show b - a = (b - (a + 1)) + 1 by omega, List.getD_cons_succ]
      · rw [if_neg (by omega), if_neg (by omega), if_neg (by omega)]

/-- A span stored inside memory keeps the canonical form. -/
theorem State.pokeList_wf (a : Nat) (bytes : List Byte) (h : Memory.wf s.cfg s.mem) (hb : a + bytes.length ≤ memSize) :
    Memory.wf (s.pokeList a bytes).cfg (s.pokeList a bytes).mem := by
  induction bytes generalizing s a with
  | nil => exact h
  | cons v rest ih =>
    rw [List.length_cons] at hb
    exact ih (s.poke a v) (a + 1) (Memory.write_wf h (by omega) v) (by omega)

@[simp] theorem State.peekList_length (a n : Nat) : (s.peekList a n).length = n := by
  induction n generalizing a with
  | zero => rfl
  | succ n ih => simp [State.peekList, ih]

theorem State.peekList_getElem (a n k : Nat) (h : k < n) : (s.peekList a n)[k]? = some (s.peek (a + k)) := by
  induction n generalizing a k with
  | zero => omega
  | succ n ih =>
    cases k with
    | zero => rfl
    | succ k => rw [State.peekList, List.getElem?_cons_succ, ih (a + 1) k (by omega)]; congr 2; omega

theorem State.peekList_congr {s t : State} (h : ∀ b, t.peek b = s.peek b) (a n : Nat) :
    t.peekList a n = s.peekList a n := by
  induction n generalizing a with
  | zero => rfl
  | succ n ih => simp [State.peekList, ih, h]

theorem spanOutOfBounds_iff (a n : Nat) : spanOutOfBounds a n = true ↔ 0 < n ∧ 0xFFF < a + n - 1 := by
  simp [spanOutOfBounds]

/-- A load that answers has read exactly the span, all of it inside memory. -/
theorem loadBytes_ok_iff (a n : Nat) (bytes : List Byte) :
    loadBytes s a n = .ok bytes ↔ (n = 0 ∨ a + n ≤ memSize) ∧ bytes = s.peekList a n := by
  simp only [loadBytes, memSize]
  split
  · rename_i h; rw [spanOutOfBounds_iff] at h; exact ⟨nofun, fun e => absurd e.1 (by omega)⟩
  · rename_i h; rw [spanOutOfBounds_iff] at h; simp only [Except.ok.injEq, eq_comm (a := bytes)]
    constructor
    · exact fun e => ⟨by omega, e⟩
    · exact fun e => e.2

/-- A load fails exactly when its highest address lies above 0xFFF, and says which. -/
theorem loadBytes_error_iff (a n : Nat) (f : Fault) :
    loadBytes s a n = .error f ↔ (0 < n ∧ 0xFFF < a + n - 1) ∧ f = .memoryOutOfBounds (a + n - 1) := by
  simp only [loadBytes]
  split
  · rename_i h; rw [spanOutOfBounds_iff] at h; simp [h, eq_comm]
  · rename_i h; rw [spanOutOfBounds_iff] at h; simp only [reduceCtorEq, false_iff]; tauto

theorem storeBytes_ok_iff (a : Nat) (bytes : List Byte) (t : State) :
    storeBytes s a bytes = .ok t ↔ (bytes.length = 0 ∨ a + bytes.length ≤ memSize) ∧ t = s.pokeList a bytes := by
  simp only [storeBytes, memSize]
  split
  · rename_i h; rw [spanOutOfBounds_iff] at h; exact ⟨nofun, fun e => absurd e.1 (by omega)⟩
  · rename_i h; rw [spanOutOfBounds_iff] at h; simp only [Except.ok.injEq, eq_comm (a := t)]
    constructor
    · exact fun e => ⟨by omega, e⟩
    · exact fun e => e.2

theorem storeBytes_error_iff (a : Nat) (bytes : List Byte) (f : Fault) :
    storeBytes s a bytes = .error f ↔
      (0 < bytes.length ∧ 0xFFF < a + bytes.length - 1) ∧ f = .memoryOutOfBounds (a + bytes.length - 1) := by
  simp only [storeBytes]
  split
  · rename_i h; rw [spanOutOfBounds_iff] at h; simp [h, eq_comm]
  · rename_i h; rw [spanOutOfBounds_iff] at h; simp only [reduceCtorEq, false_iff]; tauto

theorem finish_next_iff (r : Except Fault State) (t : State) : finish r = .next t ↔ r = .ok t := by
  cases r <;> simp [finish, raise]

theorem finish_fault_iff (r : Except Fault State) (f : Fault) : finish r = .fault f ↔ r = .error f := by
  cases r <;> simp [finish, raise]

theorem finish_refused (r : Except Fault State) (x : Refusal) : finish r ≠ .refused x := by
  cases r <;> simp [finish, raise]

/-! ## Call stack -/

theorem push_ok_iff (v : Word) (t : State) :
    push s v = .ok t ↔ ∃ h : s.sp.val < 16,
      t = { s with stack := s.stack.set s.sp.val v h, sp := ⟨s.sp.val + 1, by omega⟩ } := by
  have := s.sp.isLt
  simp only [push]
  split
  · simp; omega
  · simp only [Except.ok.injEq, eq_comm (a := t)]
    exact ⟨fun e => ⟨by omega, e⟩, fun e => e.2⟩

theorem push_error_iff (v : Word) (f : Fault) : push s v = .error f ↔ s.sp.val = 16 ∧ f = .stackOverflow := by
  simp only [push]
  split <;> simp_all [eq_comm]

theorem pop_ok_iff (v : Word) (t : State) :
    pop s = .ok (v, t) ↔ ∃ _h : s.sp.val ≠ 0,
      v = s.stack[s.sp.val - 1] ∧ t = { s with sp := ⟨s.sp.val - 1, by omega⟩ } := by
  simp only [pop]
  split
  · simp_all
  · simp_all [eq_comm]

theorem pop_error_iff (f : Fault) : pop s = .error f ↔ s.sp.val = 0 ∧ f = .stackUnderflow := by
  simp only [pop]
  split <;> simp_all [eq_comm]

/-! ## Fetch -/

theorem memRead_ok {a : Nat} (h : a ≤ 0xFFF) : memRead s a = .ok (s.peek a) := by
  rw [memRead, if_neg (by omega)]

theorem memRead_error {a : Nat} (h : 0xFFF < a) : memRead s a = .error (.memoryOutOfBounds a) := by
  rw [memRead, if_pos h]

/-- A fetch from inside memory reads the two bytes, high byte first. -/
theorem fetchWord_ok (h : s.pc.toNat ≤ 0xFFE) :
    fetchWord s = .ok (joinBytes (s.peek s.pc.toNat) (s.peek (s.pc.toNat + 1))) := by
  rw [fetchWord, if_neg (by omega), memRead_ok s (by omega), memRead_ok s (by omega)]

theorem fetchWord_error (h : 0xFFE < s.pc.toNat) : fetchWord s = .error (.memoryOutOfBounds s.pc.toNat) := by
  rw [fetchWord, if_pos h]

/-! ## Registers -/

@[simp] theorem State.readV_writeV (x y : Nibble) (v : Byte) :
    (s.writeV x v).readV y = if y = x then v else s.readV y := by
  simp only [State.readV, State.writeV_V, Fin.getElem_fin, Vector.getElem_set, Fin.ext_iff, eq_comm (a := y.val)]

/-- Writing a register changes the registers only. -/
theorem State.writeV_eq (x : Nibble) (v : Byte) : s.writeV x v = { s with V := (s.writeV x v).V } := rfl

@[simp] theorem State.readV_poke (a : Nat) (v : Byte) (r : Nibble) : (s.poke a v).readV r = s.readV r := rfl
@[simp] theorem State.readV_writeI (n : Nat) (r : Nibble) : (s.writeI n).readV r = s.readV r := rfl
@[simp] theorem State.readV_writePc (w : Word) (r : Nibble) : (s.writePc w).readV r = s.readV r := rfl
@[simp] theorem State.readV_writeDT (v : Byte) (r : Nibble) : (s.writeDT v).readV r = s.readV r := rfl
@[simp] theorem State.readV_writeST (v : Byte) (r : Nibble) : (s.writeST v).readV r = s.readV r := rfl
@[simp] theorem State.readV_writeFb (f : Framebuffer) (r : Nibble) : (s.writeFb f).readV r = s.readV r := rfl
@[simp] theorem State.readV_advance (op : Word) (r : Nibble) : (s.advance op).readV r = s.readV r := rfl
@[simp] theorem State.readV_timerTick (r : Nibble) : s.timerTick.readV r = s.readV r := rfl
@[simp] theorem State.readV_countDraw (r : Nibble) : s.countDraw.readV r = s.readV r := rfl

@[simp] theorem State.readV_pokeList (a : Nat) (bytes : List Byte) (r : Nibble) :
    (s.pokeList a bytes).readV r = s.readV r := by rw [State.pokeList_eq]; rfl

/-- With x = 0xF the result stands; else VF holds the flag and `V[x]` the result (42_register_alu.md R106). -/
theorem State.readV_writeFlagThenV (flag : Byte) (x : Nibble) (result : Byte) (r : Nibble) :
    (s.writeFlagThenV flag x result).readV r = if r = x then result else if r = regVF then flag else s.readV r := by
  simp [State.writeFlagThenV]

theorem State.writeFlagThenV_eq (flag : Byte) (x : Nibble) (result : Byte) :
    s.writeFlagThenV flag x result = { s with V := (s.writeFlagThenV flag x result).V } := rfl

theorem State.writeVs_eq (k : Nat) (bytes : List Byte) : s.writeVs k bytes = { s with V := (s.writeVs k bytes).V } := by
  induction bytes generalizing s k with
  | nil => rfl
  | cons v rest ih =>
    simp only [State.writeVs]
    split
    · rw [ih]; rfl
    · rfl

/-- The registers from number `k` on take the bytes in order; the others keep their values. -/
theorem State.readV_writeVs (k : Nat) (bytes : List Byte) (r : Nibble) :
    (s.writeVs k bytes).readV r = if k ≤ r.val ∧ r.val < k + bytes.length then bytes.getD (r.val - k) 0 else s.readV r := by
  induction bytes generalizing s k with
  | nil => simp only [State.writeVs, List.length_nil]; rw [if_neg (by omega)]
  | cons v rest ih =>
    have hr := r.isLt
    simp only [State.writeVs, List.length_cons]
    split
    · rename_i hk
      have hx : (r = ⟨k, hk⟩) ↔ r.val = k := Fin.ext_iff
      rw [ih, State.readV_writeV]
      simp only [hx]
      rcases Nat.lt_trichotomy r.val k with h | h | h
      · rw [if_neg (by omega), if_neg (by omega), if_neg (by omega)]
      · rw [if_neg (by omega), if_pos h, if_pos (by omega)]; simp [h]
      · by_cases hin : r.val < k + (rest.length + 1)
        · rw [if_pos (by omega), if_pos (by omega), show r.val - k = (r.val - (k + 1)) + 1 by omega, List.getD_cons_succ]
        · rw [if_neg (by omega), if_neg (by omega), if_neg (by omega)]
    · rw [if_neg (by omega)]

@[simp] theorem State.readVs_length (k n : Nat) (h : k + n ≤ 16) : (s.readVs k n).length = n := by
  induction n generalizing k with
  | zero => rfl
  | succ n ih => rw [State.readVs, dif_pos (by omega), List.length_cons, ih (k + 1) (by omega)]

theorem State.readVs_getElem (k n j : Nat) (h : k + n ≤ 16) (hj : j < n) :
    (s.readVs k n)[j]? = some (s.readV ⟨k + j, by omega⟩) := by
  induction n generalizing k j with
  | zero => omega
  | succ n ih =>
    rw [State.readVs, dif_pos (by omega)]
    cases j with
    | zero => rfl
    | succ j =>
      rw [List.getElem?_cons_succ, ih (k + 1) j (by omega) (by omega)]
      congr 2; simp; omega

/-! ## Skip, keys, timers -/

theorem State.skipIf_eq (c : Bool) : s.skipIf c = { s with pc := if c then s.pc + 2 else s.pc } := by
  cases c <;> rfl

theorem keyOfByte_ok_iff (v : Byte) (k : Nibble) : keyOfByte v = .ok k ↔ v.toNat = k.val := by
  have := k.isLt
  simp only [keyOfByte]
  split
  · simp [Fin.ext_iff]
  · simp; omega

theorem keyOfByte_error_iff (v : Byte) (f : Fault) :
    keyOfByte v = .error f ↔ 0xF < v.toNat ∧ f = .keyIndexOutOfRange v := by
  simp only [keyOfByte]
  split
  · simp; omega
  · simp [eq_comm]; omega

/-- The least pressed key: it is pressed and no lower key is. -/
theorem State.leastKey_some_iff (k : Nibble) :
    s.leastKey = some k ↔ s.readKey k = true ∧ ∀ j, j < k → s.readKey j = false := by
  have hsort : (List.finRange 16).Pairwise (· < ·) := by decide
  constructor
  · intro h
    obtain ⟨hk, as, bs, hl, hn⟩ := List.find?_eq_some_iff_append.1 h
    refine ⟨hk, fun j hj => ?_⟩
    have hm : j ∈ as ++ k :: bs := hl ▸ List.mem_finRange j
    rw [hl, List.pairwise_append] at hsort
    rcases List.mem_append.1 hm with h1 | h1
    · simpa using hn j h1
    · rcases List.mem_cons.1 h1 with rfl | h2
      · exact absurd hj (lt_irrefl _)
      · exact absurd hj (not_lt.2 (le_of_lt ((List.pairwise_cons.1 hsort.2.1).1 j h2)))
  · rintro ⟨hk, hlt⟩
    cases h : s.leastKey with
    | none =>
      have := List.find?_eq_none.1 h k (List.mem_finRange k)
      simp [hk] at this
    | some j =>
      obtain ⟨hj, as, bs, hl, hn⟩ := List.find?_eq_some_iff_append.1 h
      have hm : k ∈ as ++ j :: bs := hl ▸ List.mem_finRange k
      rw [hl, List.pairwise_append] at hsort
      rcases List.mem_append.1 hm with h1 | h1
      · simpa [hk] using hn k h1
      · rcases List.mem_cons.1 h1 with rfl | h2
        · rfl
        · have := hlt j ((List.pairwise_cons.1 hsort.2.1).1 k h2)
          simp [this] at hj

theorem State.leastKey_none_iff : s.leastKey = none ↔ ∀ k, s.readKey k = false := by
  simp [State.leastKey, List.find?_eq_none]

theorem countDown_toNat (t : Byte) : (countDown t).toNat = t.toNat - 1 := by
  simp only [countDown]
  split
  · rename_i h; have := t.isLt; rw [BitVec.toNat_sub]; simp; omega
  · omega

/-- The timer step changes the timers only. -/
theorem State.timerStep_eq : s.timerStep = { s with DT := s.timerStep.DT, ST := s.timerStep.ST } := by
  unfold State.timerStep
  split <;> rfl

/-- The timer step counts the delay timer down once when coupled (30_encoding.md R76). -/
theorem State.timerStep_DT_toNat :
    s.timerStep.DT.toNat = s.DT.toNat - if s.cfg.timerCoupled = true then 1 else 0 := by
  unfold State.timerStep
  split <;> simp [countDown_toNat]

/-- The timer step counts the sound timer down once when coupled (30_encoding.md R76). -/
theorem State.timerStep_ST_toNat :
    s.timerStep.ST.toNat = s.ST.toNat - if s.cfg.timerCoupled = true then 1 else 0 := by
  unfold State.timerStep
  split <;> simp [countDown_toNat]

@[simp] theorem State.timerStep_V : s.timerStep.V = s.V := by rw [State.timerStep_eq]
@[simp] theorem State.timerStep_I : s.timerStep.I = s.I := by rw [State.timerStep_eq]
@[simp] theorem State.timerStep_pc : s.timerStep.pc = s.pc := by rw [State.timerStep_eq]
@[simp] theorem State.timerStep_stack : s.timerStep.stack = s.stack := by rw [State.timerStep_eq]
@[simp] theorem State.timerStep_sp : s.timerStep.sp = s.sp := by rw [State.timerStep_eq]
@[simp] theorem State.timerStep_key : s.timerStep.key = s.key := by rw [State.timerStep_eq]
@[simp] theorem State.timerStep_fb : s.timerStep.fb = s.fb := by rw [State.timerStep_eq]
@[simp] theorem State.timerStep_curOp : s.timerStep.curOp = s.curOp := by rw [State.timerStep_eq]
@[simp] theorem State.timerStep_mem : s.timerStep.mem = s.mem := by rw [State.timerStep_eq]
@[simp] theorem State.timerStep_cfg : s.timerStep.cfg = s.cfg := by rw [State.timerStep_eq]
@[simp] theorem State.timerStep_drawCount : s.timerStep.drawCount = s.drawCount := by rw [State.timerStep_eq]

@[simp] theorem State.peek_timerStep (a : Nat) : s.timerStep.peek a = s.peek a := by rw [State.timerStep_eq]; rfl

@[simp] theorem State.readV_timerStep (r : Nibble) : s.timerStep.readV r = s.readV r := by rw [State.timerStep_eq]; rfl

end Sys2Proof.Machine
end

