-- ==== Sys2Proof/Laws/Display.lean ====
section
/-! SUPPORT. The pixel store and the sprite draw: which pixels a sprite names, each at most once, and what toggling them
does to the pixels and the collision flag (spec 44_display.md R116-R118). -/

namespace Sys2Proof.Machine

/-- Read after write of one pixel. -/
@[simp] theorem fbGet_fbSet (f : Framebuffer) (p q : Pixel) (b : Bool) :
    fbGet (fbSet f p b) q = if q = p then b else fbGet f q := by
  obtain ⟨px, py⟩ := p
  obtain ⟨qx, qy⟩ := q
  simp only [fbGet, fbSet, Fin.getElem_fin, Vector.getElem_set, Prod.mk.injEq, Fin.ext_iff]
  by_cases hy : qy.val = py.val
  · by_cases hx : qx.val = px.val
    · simp [hx, hy]
    · simp [hx, hy, Ne.symm hx]
  · simp [hy, Ne.symm hy]

theorem State.pixel_eq_fbGet (s : State) (x : Fin 64) (y : Fin 32) : s.pixel x y = fbGet s.fb (x, y) := rfl

@[simp] theorem fbGet_clearFb (p : Pixel) : fbGet clearFb p = false := by
  simp [fbGet, clearFb]

/-- Pixel stores that read alike are equal. -/
theorem fb_ext {f g : Framebuffer} (h : ∀ p, fbGet f p = fbGet g p) : f = g := by
  apply Vector.ext
  intro y hy
  apply Vector.ext
  intro x hx
  exact h (⟨x, hx⟩, ⟨y, hy⟩)

/-- Toggling pixels that are named once each inverts exactly those (R116). -/
theorem fbGet_togglePixels (f : Framebuffer) (hit : Bool) (ps : List Pixel) (hn : ps.Nodup) (q : Pixel) :
    fbGet (togglePixels f hit ps).1 q = if q ∈ ps then !fbGet f q else fbGet f q := by
  induction ps generalizing f hit with
  | nil => simp [togglePixels]
  | cons p rest ih =>
    obtain ⟨hp, hr⟩ := List.nodup_cons.1 hn
    rw [togglePixels, ih _ _ hr, fbGet_fbSet]
    by_cases hq : q = p
    · subst q; simp [hp]
    · simp [hq]

/-- The flag after toggling pixels named once each: some one of them was on (R117). -/
theorem togglePixels_hit (f : Framebuffer) (hit : Bool) (ps : List Pixel) (hn : ps.Nodup) :
    (togglePixels f hit ps).2 = true ↔ hit = true ∨ ∃ p ∈ ps, fbGet f p = true := by
  induction ps generalizing f hit with
  | nil => simp [togglePixels]
  | cons p rest ih =>
    obtain ⟨hp, hr⟩ := List.nodup_cons.1 hn
    rw [togglePixels, ih _ _ hr]
    have hrest : (∃ q ∈ rest, fbGet (fbSet f p (!fbGet f p)) q = true) ↔ ∃ q ∈ rest, fbGet f q = true := by
      refine exists_congr fun q => and_congr_right fun hq => ?_
      rw [fbGet_fbSet, if_neg (fun (h : q = p) => hp (h ▸ hq))]
    rw [hrest]
    simp [or_assoc]

/-- The pixels of one sprite byte: bit 7 - col of the byte at column x0 + col, wrapped (R116, R118). -/
theorem mem_spriteRow (x0 y0 : Nat) (b : Byte) (q : Pixel) :
    q ∈ spriteRow x0 y0 b ↔
      ∃ col, col < 8 ∧ b.getLsbD (7 - col) = true ∧ q.1.val = (x0 + col) % 64 ∧ q.2.val = y0 % 32 := by
  simp only [spriteRow, List.mem_filterMap, List.mem_finRange, true_and, Option.ite_none_right_eq_some,
    Option.some.injEq, Prod.ext_iff, Fin.ext_iff, Fin.val_ofNat]
  constructor
  · rintro ⟨col, hb, hx, hy⟩; exact ⟨col.val, col.isLt, hb, hx.symm, hy.symm⟩
  · rintro ⟨col, hc, hb, hx, hy⟩; exact ⟨⟨col, hc⟩, hb, hx.symm, hy.symm⟩

/-- The pixels of a sprite: row r of its bytes lands on row y0 + r, wrapped (R116, R118). -/
theorem mem_spritePixels (x0 y0 : Nat) (bytes : List Byte) (q : Pixel) :
    q ∈ spritePixels x0 y0 bytes ↔
      ∃ row, row < bytes.length ∧ ∃ col, col < 8 ∧ (bytes.getD row 0).getLsbD (7 - col) = true ∧
        q.1.val = (x0 + col) % 64 ∧ q.2.val = (y0 + row) % 32 := by
  induction bytes generalizing y0 with
  | nil => simp [spritePixels]
  | cons b rest ih =>
    rw [spritePixels, List.mem_append, mem_spriteRow, ih, List.length_cons]
    constructor
    · rintro (⟨col, hc, hb, hx, hy⟩ | ⟨row, hr, col, hc, hb, hx, hy⟩)
      · exact ⟨0, by omega, col, hc, by simpa using hb, hx, by simpa using hy⟩
      · exact ⟨row + 1, by omega, col, hc, by simpa using hb, hx, by rw [hy]; congr 1; omega⟩
    · rintro ⟨row, hr, col, hc, hb, hx, hy⟩
      cases row with
      | zero => exact .inl ⟨col, hc, by simpa using hb, hx, by simpa using hy⟩
      | succ row => exact .inr ⟨row, by omega, col, hc, by simpa using hb, hx, by rw [hy]; congr 1; omega⟩

theorem spriteRow_nodup (x0 y0 : Nat) (b : Byte) : (spriteRow x0 y0 b).Nodup := by
  refine List.Nodup.filterMap ?_ (List.nodup_finRange 8)
  intro c c' p hc hc'
  simp only [Option.mem_def, Option.ite_none_right_eq_some, Option.some.injEq] at hc hc'
  have h := congrArg Fin.val (congrArg Prod.fst (hc.2.trans hc'.2.symm))
  simp only [Fin.val_ofNat] at h
  have := c.isLt
  have := c'.isLt
  exact Fin.ext (by omega)

/-- A sprite of at most 32 rows names no pixel twice (R118). -/
theorem spritePixels_nodup (x0 y0 : Nat) (bytes : List Byte) (h : bytes.length ≤ 32) :
    (spritePixels x0 y0 bytes).Nodup := by
  induction bytes generalizing y0 with
  | nil => simp [spritePixels]
  | cons b rest ih =>
    rw [List.length_cons] at h
    rw [spritePixels, List.nodup_append]
    refine ⟨spriteRow_nodup x0 y0 b, ih (y0 + 1) (by omega), ?_⟩
    rintro p hp q hq rfl
    obtain ⟨_, _, _, _, hy⟩ := (mem_spriteRow x0 y0 b p).1 hp
    obtain ⟨row, hr, _, _, _, _, hy'⟩ := (mem_spritePixels x0 (y0 + 1) rest p).1 hq
    omega

/-- A draw changes pixels and registers only. -/
theorem State.drawSprite_eq (s : State) (x0 y0 : Nat) (bytes : List Byte) :
    s.drawSprite x0 y0 bytes =
      { s with V := (s.drawSprite x0 y0 bytes).V, fb := (s.drawSprite x0 y0 bytes).fb } := rfl

theorem State.drawSprite_fb (s : State) (x0 y0 : Nat) (bytes : List Byte) :
    (s.drawSprite x0 y0 bytes).fb = (togglePixels s.fb false (spritePixels x0 y0 bytes)).1 := rfl

theorem State.readV_drawSprite (s : State) (x0 y0 : Nat) (bytes : List Byte) (r : Nibble) :
    (s.drawSprite x0 y0 bytes).readV r =
      if r = regVF then flagOf (togglePixels s.fb false (spritePixels x0 y0 bytes)).2 else s.readV r := by
  simp [State.drawSprite]

end Sys2Proof.Machine
end

