-- ==== Sys2Proof/Laws/Exec.lean ====
section
/-! SUPPORT. When each handler that can fail answers a next state, and which; when it fails, and with what. The other handlers
answer a next state by definition. -/

namespace Sys2Proof.Machine

variable (s t : State) (f : Fault)

theorem execRet_next_iff : exec .ret s = .next t ↔ ∃ _h : s.sp.val ≠ 0,
    t = { s with pc := s.stack[s.sp.val - 1], sp := ⟨s.sp.val - 1, by omega⟩ } := by
  simp only [exec, execRet]
  split
  · rename_i e he; rw [pop_error_iff] at he; simp [raise, he.1]
  · rename_i v u he
    rw [pop_ok_iff] at he
    obtain ⟨h, rfl, rfl⟩ := he
    simp [State.writePc, h, eq_comm]

theorem execRet_fault_iff : exec .ret s = .fault f ↔ s.sp.val = 0 ∧ f = .stackUnderflow := by
  simp only [exec, execRet]
  split
  · rename_i e he; rw [pop_error_iff] at he; simp [raise, he, eq_comm]
  · rename_i v u he; rw [pop_ok_iff] at he; obtain ⟨h, -, -⟩ := he; simp [h]

theorem execCall_next_iff (nnn : Addr12) : exec (.call nnn) s = .next t ↔ ∃ h : s.sp.val < 16,
    t = { s with stack := s.stack.set s.sp.val s.pc h, sp := ⟨s.sp.val + 1, by omega⟩, pc := zext16 nnn } := by
  simp only [exec, execCall]
  split
  · rename_i e he; rw [push_error_iff] at he
    simp only [raise, reduceCtorEq, false_iff, not_exists]
    intro h; omega
  · rename_i u he
    rw [push_ok_iff] at he
    obtain ⟨h, rfl⟩ := he
    simp [State.writePc, h, eq_comm]

theorem execCall_fault_iff (nnn : Addr12) : exec (.call nnn) s = .fault f ↔ s.sp.val = 16 ∧ f = .stackOverflow := by
  simp only [exec, execCall]
  split
  · rename_i e he; rw [push_error_iff] at he; simp [raise, he, eq_comm]
  · rename_i u he; rw [push_ok_iff] at he; obtain ⟨h, -⟩ := he; simp; omega

theorem execAddI_next_iff (x : Nibble) : exec (.addI x) s = .next t ↔
    s.I.toNat + (s.readV x).toNat ≤ 0xFFF ∧ t = s.writeI (s.I.toNat + (s.readV x).toNat) := by
  simp only [exec, execAddI]
  split
  · simp [raise]; omega
  · simp [eq_comm]; omega

theorem execAddI_fault_iff (x : Nibble) : exec (.addI x) s = .fault f ↔
    0xFFF < s.I.toNat + (s.readV x).toNat ∧ f = .memoryOutOfBounds (s.I.toNat + (s.readV x).toNat) := by
  simp only [exec, execAddI]
  split
  · rename_i h; simp [raise, h, eq_comm]
  · simp; omega

theorem execLdB_next_iff (x : Nibble) : exec (.ldB x) s = .next t ↔
    s.I.toNat + 2 ≤ 0xFFF ∧ t = s.pokeList s.I.toNat (bcdDigits (s.readV x)) := by
  have : (bcdDigits (s.readV x)).length = 3 := rfl
  simp only [exec, execLdB, finish_next_iff, storeBytes_ok_iff, this, memSize]
  exact and_congr_left fun _ => by omega

theorem execLdB_fault_iff (x : Nibble) : exec (.ldB x) s = .fault f ↔
    0xFFF < s.I.toNat + 2 ∧ f = .memoryOutOfBounds (s.I.toNat + 2) := by
  have : (bcdDigits (s.readV x)).length = 3 := rfl
  simp only [exec, execLdB, finish_fault_iff, storeBytes_error_iff, this]
  exact and_congr_left fun _ => by omega

theorem execLdMemVx_next_iff (x : Nibble) : exec (.ldMemVx x) s = .next t ↔
    s.I.toNat + x.val ≤ 0xFFF ∧ t = s.pokeList s.I.toNat (s.readVs 0 (x.val + 1)) := by
  have : (s.readVs 0 (x.val + 1)).length = x.val + 1 := s.readVs_length 0 _ (by omega)
  simp only [exec, execLdMemVx, finish_next_iff, storeBytes_ok_iff, this, memSize]
  exact and_congr_left fun _ => by omega

theorem execLdMemVx_fault_iff (x : Nibble) : exec (.ldMemVx x) s = .fault f ↔
    0xFFF < s.I.toNat + x.val ∧ f = .memoryOutOfBounds (s.I.toNat + x.val) := by
  have : (s.readVs 0 (x.val + 1)).length = x.val + 1 := s.readVs_length 0 _ (by omega)
  simp only [exec, execLdMemVx, finish_fault_iff, storeBytes_error_iff, this]
  exact and_congr_left fun _ => by omega

theorem execLdVxMem_next_iff (x : Nibble) : exec (.ldVxMem x) s = .next t ↔
    s.I.toNat + x.val ≤ 0xFFF ∧ t = s.writeVs 0 (s.peekList s.I.toNat (x.val + 1)) := by
  simp only [exec, execLdVxMem]
  split
  · rename_i e he; rw [loadBytes_error_iff] at he; simp [raise]; omega
  · rename_i bytes he
    rw [loadBytes_ok_iff] at he
    obtain ⟨h, rfl⟩ := he
    simp only [memSize] at h
    simp [eq_comm]; omega

theorem execLdVxMem_fault_iff (x : Nibble) : exec (.ldVxMem x) s = .fault f ↔
    0xFFF < s.I.toNat + x.val ∧ f = .memoryOutOfBounds (s.I.toNat + x.val) := by
  simp only [exec, execLdVxMem]
  split
  · rename_i e he
    rw [loadBytes_error_iff] at he
    obtain ⟨h, rfl⟩ := he
    simp [raise, eq_comm]; omega
  · rename_i bytes he; rw [loadBytes_ok_iff] at he; simp only [memSize] at he; simp; omega

theorem execDrw_next_iff (x y n : Nibble) : exec (.drw x y n) s = .next t ↔
    (n.val = 0 ∨ s.I.toNat + n.val - 1 ≤ 0xFFF) ∧
      t = s.drawSprite ((s.readV x).toNat % 64) ((s.readV y).toNat % 32) (s.peekList s.I.toNat n.val) := by
  simp only [exec, execDrw]
  split
  · rename_i e he; rw [loadBytes_error_iff] at he; simp [raise]; omega
  · rename_i bytes he
    rw [loadBytes_ok_iff] at he
    obtain ⟨h, rfl⟩ := he
    simp only [memSize] at h
    simp [eq_comm]; omega

theorem execDrw_fault_iff (x y n : Nibble) : exec (.drw x y n) s = .fault f ↔
    (0 < n.val ∧ 0xFFF < s.I.toNat + n.val - 1) ∧ f = .memoryOutOfBounds (s.I.toNat + n.val - 1) := by
  simp only [exec, execDrw]
  split
  · rename_i e he
    rw [loadBytes_error_iff] at he
    obtain ⟨h, rfl⟩ := he
    simp [raise, eq_comm]; omega
  · rename_i bytes he; rw [loadBytes_ok_iff] at he; simp only [memSize] at he; simp; omega

theorem execSkp_next_iff (x : Nibble) : exec (.skp x) s = .next t ↔
    ∃ k : Nibble, (s.readV x).toNat = k.val ∧ t = s.skipIf (s.readKey k) := by
  simp only [exec, execSkp, ← keyOfByte_ok_iff]
  split <;> rename_i he <;> simp [he, raise, eq_comm]

theorem execSkp_fault_iff (x : Nibble) : exec (.skp x) s = .fault f ↔
    0xF < (s.readV x).toNat ∧ f = .keyIndexOutOfRange (s.readV x) := by
  simp only [exec, execSkp, ← keyOfByte_error_iff]
  split <;> rename_i he <;> simp [he, raise]

theorem execSknp_next_iff (x : Nibble) : exec (.sknp x) s = .next t ↔
    ∃ k : Nibble, (s.readV x).toNat = k.val ∧ t = s.skipIf (!s.readKey k) := by
  simp only [exec, execSknp, ← keyOfByte_ok_iff]
  split <;> rename_i he <;> simp [he, raise, eq_comm]

theorem execSknp_fault_iff (x : Nibble) : exec (.sknp x) s = .fault f ↔
    0xF < (s.readV x).toNat ∧ f = .keyIndexOutOfRange (s.readV x) := by
  simp only [exec, execSknp, ← keyOfByte_error_iff]
  split <;> rename_i he <;> simp [he, raise]

/-- Fx0A always completes: with a key down it stores the least one, else it goes back by 2. -/
theorem execLdVxK_next_iff (x : Nibble) : exec (.ldVxK x) s = .next t ↔
    (∃ k, s.leastKey = some k ∧ t = s.writeV x (BitVec.ofNat 8 k.val)) ∨ (s.leastKey = none ∧ t = s.writePc (s.pc - 2)) := by
  simp only [exec, execLdVxK]
  split <;> rename_i he <;> simp [he, eq_comm]

end Sys2Proof.Machine
end

