-- ==== Sys2Proof/Laws/Cycle.lean ====
section
/-! SUPPORT. The paths of a cycle and of a step (spec 30_encoding.md R77), said once. -/

namespace Sys2Proof.Machine

variable (s t : State)

/-- The word at `pc`, high byte first. -/
def State.wordAtPc (s : State) : Word := joinBytes (s.peek s.pc.toNat) (s.peek (s.pc.toNat + 1))

theorem cycle_of_fetch_error (h : 0xFFE < s.pc.toNat) :
    cycle s = ⟨.returned (.fatal (.memoryOutOfBounds s.pc.toNat)), s⟩ := by
  rw [cycle, fetchWord_error s h]

theorem cycle_of_fetch (h : s.pc.toNat ≤ 0xFFE) : cycle s = runWord s.wordAtPc (s.advance s.wordAtPc) := by
  rw [cycle, fetchWord_ok s h]; rfl

theorem runWord_of_unmapped {op : Word} {r : Reject} (h : decodeWord op = .error r) :
    runWord op s = ⟨.returned (.invalidOpcode op), s.timerStep⟩ := by rw [runWord, h]

theorem runWord_of_next {op : Word} {i : Instr} (hd : decodeWord op = .ok i) (h : exec i s = .next t) :
    runWord op s = ⟨.returned .ok, t.timerStep⟩ := by rw [runWord, hd]; simp only [h]

theorem runWord_of_fault {op : Word} {i : Instr} {f : Fault} (hd : decodeWord op = .ok i) (h : exec i s = .fault f) :
    runWord op s = ⟨.returned (.fatal f), s⟩ := by rw [runWord, hd]; simp only [h]

/-- No handler refuses: every instruction has its meaning. -/
theorem exec_not_refused (i : Instr) (r : Refusal) : exec i s ≠ .refused r := by
  cases i <;> simp only [exec, execCls, execRet, execJp, execCall, execSeByte, execSneByte, execSeReg, execLdByte, execAddByte,
    execLdReg, execOrReg, execAndReg, execXorReg, execAddReg, execSub, execShr, execSubn, execShl, execSneReg, execLdI,
    execJpV0, execRnd, execDrw, execSkp, execSknp, execLdVxDT, execLdVxK, execLdDTVx, execLdSTVx, execAddI, execLdF,
    execLdB, execLdMemVx, execLdVxMem, raise, ne_eq, reduceCtorEq, not_false_eq_true]
  case ldB => exact finish_refused _ _
  case ldMemVx => exact finish_refused _ _
  all_goals split <;> simp

/-- What a step that answers a next state has done: an unmapped word, or a decoded instruction that completed, and then the
timer step. -/
theorem step_next_cases (h : step s = .next t) :
    s.pc.toNat ≤ 0xFFE ∧
      (((∃ r, decodeWord s.wordAtPc = .error r) ∧ t = (s.advance s.wordAtPc).timerStep) ∨
        ∃ i u, decodeWord s.wordAtPc = .ok i ∧ exec i (s.advance s.wordAtPc) = .next u ∧ t = u.timerStep) := by
  rw [step] at h
  by_cases hp : s.pc.toNat ≤ 0xFFE
  · refine ⟨hp, ?_⟩
    rw [cycle_of_fetch s hp] at h
    cases hd : decodeWord s.wordAtPc with
    | error r =>
      rw [runWord_of_unmapped _ hd] at h
      exact .inl ⟨⟨r, rfl⟩, by simpa [CallResult.asOutcome, eq_comm] using h⟩
    | ok i =>
      cases he : exec i (s.advance s.wordAtPc) with
      | next u =>
        rw [runWord_of_next _ u hd he] at h
        exact .inr ⟨i, u, rfl, he, by simpa [CallResult.asOutcome, eq_comm] using h⟩
      | fault f => rw [runWord_of_fault _ hd he] at h; simp [CallResult.asOutcome] at h
      | refused r => exact absurd he (exec_not_refused _ _ _)
  · rw [cycle_of_fetch_error s (by omega)] at h
    simp [CallResult.asOutcome] at h

/-- A decoded instruction's step is its handler on the fetched and advanced state, then the timer step. -/
theorem step_of_decoded {i : Instr} (hp : s.pc.toNat ≤ 0xFFE) (hd : decodeWord s.wordAtPc = .ok i) :
    step s = match exec i (s.advance s.wordAtPc) with
      | .next t => .next t.timerStep
      | .fault f => .fault f
      | .refused r => .refused r := by
  rw [step, cycle_of_fetch s hp, runWord, hd]
  cases he : exec i (s.advance s.wordAtPc) <;> simp [CallResult.asOutcome, he]

theorem step_of_unmapped {r : Reject} (hp : s.pc.toNat ≤ 0xFFE) (hd : decodeWord s.wordAtPc = .error r) :
    step s = .next (s.advance s.wordAtPc).timerStep := by
  rw [step, cycle_of_fetch s hp, runWord_of_unmapped _ hd]; rfl

theorem step_of_fetch_error (h : 0xFFE < s.pc.toNat) : step s = .fault (.memoryOutOfBounds s.pc.toNat) := by
  rw [step, cycle_of_fetch_error s h]; rfl

end Sys2Proof.Machine
end

