-- ==== Sys2Proof/Laws/Decode.lean ====
section
/-! SUPPORT. The fields of a word and the words of the formats as numbers, and the fields of a format's word
(spec 30_encoding.md R63, R65). -/

namespace Sys2Proof

/-- Concatenation as arithmetic. -/
theorem append_toNat {m n : Nat} (a : BitVec m) (b : BitVec n) : (a ++ b).toNat = a.toNat * 2 ^ n + b.toNat := by
  rw [BitVec.toNat_append, Nat.shiftLeft_eq, ← Nat.shiftLeft_eq, ← Nat.shiftLeft_add_eq_or_of_lt b.isLt]

/-! ## Fields of any word -/

theorem opFamily_val (w : Word) : (opFamily w).val = w.toNat / 4096 := by
  have := w.isLt
  simp [opFamily, Nat.shiftRight_eq_div_pow]; omega

theorem opX_val (w : Word) : (opX w).val = w.toNat / 256 % 16 := by
  simp [opX, Nat.shiftRight_eq_div_pow]

theorem opY_val (w : Word) : (opY w).val = w.toNat / 16 % 16 := by
  simp [opY, Nat.shiftRight_eq_div_pow]

theorem opN_val (w : Word) : (opN w).val = w.toNat % 16 := by
  simp [opN]

theorem opKK_toNat (w : Word) : (opKK w).toNat = w.toNat % 256 := by
  simp [opKK]

theorem opNNN_toNat (w : Word) : (opNNN w).toNat = w.toNat % 4096 := by
  simp [opNNN]

/-! ## The bytes of a word -/

theorem joinBytes_toNat (hi lo : Byte) : (joinBytes hi lo).toNat = hi.toNat * 256 + lo.toNat := append_toNat hi lo

theorem highByte_toNat (w : Word) : (highByte w).toNat = w.toNat / 256 := by
  have := w.isLt
  simp [highByte, Nat.shiftRight_eq_div_pow]; omega

theorem lowByte_toNat (w : Word) : (lowByte w).toNat = w.toNat % 256 := by
  simp [lowByte]

/-- A word's bytes joined again are the word (20_memory.md R52). -/
@[simp] theorem joinBytes_highByte_lowByte (w : Word) : joinBytes (highByte w) (lowByte w) = w := by
  apply BitVec.eq_of_toNat_eq
  rw [joinBytes_toNat, highByte_toNat, lowByte_toNat]; omega

/-! ## The formats -/

theorem wordNNN_toNat (f : BitVec 4) (nnn : Addr12) : (wordNNN f nnn).toNat = f.toNat * 4096 + nnn.toNat := append_toNat f nnn

theorem wordXKK_toNat (f : BitVec 4) (x : Nibble) (kk : Byte) :
    (wordXKK f x kk).toNat = f.toNat * 4096 + x.val * 256 + kk.toNat := by
  have h : (wordXKK f x kk).toNat = (f ++ BitVec.ofFin (w := 4) x).toNat * 2 ^ 8 + kk.toNat := append_toNat _ kk
  rw [h, append_toNat]
  simp; omega

theorem wordXYN_toNat (f : BitVec 4) (x y n : Nibble) :
    (wordXYN f x y n).toNat = f.toNat * 4096 + x.val * 256 + y.val * 16 + n.val := by
  have h : (wordXYN f x y n).toNat =
      ((f ++ BitVec.ofFin (w := 4) x) ++ BitVec.ofFin (w := 4) y).toNat * 2 ^ 4 + (BitVec.ofFin (w := 4) n).toNat :=
    append_toNat _ _
  rw [h, append_toNat, append_toNat]
  simp; omega

theorem fields_wordNNN (f : BitVec 4) (nnn : Addr12) :
    (opFamily (wordNNN f nnn)).val = f.toNat ∧ opNNN (wordNNN f nnn) = nnn := by
  have hf := f.isLt
  have hn := nnn.isLt
  refine ⟨?_, BitVec.eq_of_toNat_eq ?_⟩
  · rw [opFamily_val, wordNNN_toNat]; omega
  · rw [opNNN_toNat, wordNNN_toNat]; omega

theorem fields_wordXKK (f : BitVec 4) (x : Nibble) (kk : Byte) :
    (opFamily (wordXKK f x kk)).val = f.toNat ∧ opX (wordXKK f x kk) = x ∧ opKK (wordXKK f x kk) = kk ∧
      (opN (wordXKK f x kk)).val = kk.toNat % 16 := by
  have hf := f.isLt
  have hx := x.isLt
  have hk := kk.isLt
  refine ⟨?_, Fin.ext ?_, BitVec.eq_of_toNat_eq ?_, ?_⟩
  · rw [opFamily_val, wordXKK_toNat]; omega
  · rw [opX_val, wordXKK_toNat]; omega
  · rw [opKK_toNat, wordXKK_toNat]; omega
  · rw [opN_val, wordXKK_toNat]; omega

theorem fields_wordXYN (f : BitVec 4) (x y n : Nibble) :
    (opFamily (wordXYN f x y n)).val = f.toNat ∧ opX (wordXYN f x y n) = x ∧ opY (wordXYN f x y n) = y ∧
      opN (wordXYN f x y n) = n := by
  have hf := f.isLt
  have hx := x.isLt
  have hy := y.isLt
  have hn := n.isLt
  refine ⟨?_, Fin.ext ?_, Fin.ext ?_, Fin.ext ?_⟩
  · rw [opFamily_val, wordXYN_toNat]; omega
  · rw [opX_val, wordXYN_toNat]; omega
  · rw [opY_val, wordXYN_toNat]; omega
  · rw [opN_val, wordXYN_toNat]; omega

/-! ## Masks -/

/-- Bitwise and, digit by digit in base 16. -/
theorem and_digit (a b d e : Nat) (hd : d < 2 ^ 4) (he : e < 2 ^ 4) :
    (2 ^ 4 * a + d) &&& (2 ^ 4 * b + e) = 2 ^ 4 * (a &&& b) + (d &&& e) := by
  apply Nat.eq_of_testBit_eq
  intro j
  rw [Nat.testBit_and, Nat.testBit_two_pow_mul_add _ hd, Nat.testBit_two_pow_mul_add _ he,
    Nat.testBit_two_pow_mul_add _ (Nat.and_lt_two_pow _ he)]
  split <;> rw [Nat.testBit_and]

/-- A mask of four whole nibbles keeps or clears each nibble of a word. -/
theorem and_nibbles (w : Word) (m : Word) (p q r t : Nat) (hp : p = 0 ∨ p = 15) (hq : q = 0 ∨ q = 15) (hr : r = 0 ∨ r = 15)
    (ht : t = 0 ∨ t = 15) (hm : m.toNat = 2 ^ 4 * (2 ^ 4 * (2 ^ 4 * p + q) + r) + t) :
    (w &&& m).toNat = (if p = 15 then w.toNat / 4096 * 4096 else 0) + (if q = 15 then w.toNat / 256 % 16 * 256 else 0) +
      (if r = 15 then w.toNat / 16 % 16 * 16 else 0) + (if t = 15 then w.toNat % 16 else 0) := by
  have hw := w.isLt
  have key : ∀ u v : Nat, u < 16 → (v = 0 ∨ v = 15) → u &&& v = if v = 15 then u else 0 := by
    intro u v hu hv
    rcases hv with rfl | rfl
    · simp
    · rw [if_pos rfl]; exact (Nat.and_two_pow_sub_one_eq_mod u 4).trans (Nat.mod_eq_of_lt hu)
  have hwd : w.toNat = 2 ^ 4 * (2 ^ 4 * (2 ^ 4 * (w.toNat / 4096) + w.toNat / 256 % 16) + w.toNat / 16 % 16) + w.toNat % 16 := by
    omega
  rw [BitVec.toNat_and, hm]
  conv_lhs => rw [hwd]
  rw [and_digit _ _ _ _ (by omega) (by omega), and_digit _ _ _ _ (by omega) (by omega), and_digit _ _ _ _ (by omega) (by omega),
    key _ _ (by omega) hp, key _ _ (by omega) hq, key _ _ (by omega) hr, key _ _ (by omega) ht]
  split <;> split <;> split <;> split <;> omega

theorem and_F000 (w : Word) : (w &&& 0xF000).toNat = w.toNat / 4096 * 4096 := by
  rw [and_nibbles w 0xF000 15 0 0 0 (by decide) (by decide) (by decide) (by decide) (by decide)]; simp

theorem and_F00F (w : Word) : (w &&& 0xF00F).toNat = w.toNat / 4096 * 4096 + w.toNat % 16 := by
  rw [and_nibbles w 0xF00F 15 0 0 15 (by decide) (by decide) (by decide) (by decide) (by decide)]; simp

theorem and_F0FF (w : Word) : (w &&& 0xF0FF).toNat = w.toNat / 4096 * 4096 + w.toNat / 16 % 16 * 16 + w.toNat % 16 := by
  rw [and_nibbles w 0xF0FF 15 0 15 15 (by decide) (by decide) (by decide) (by decide) (by decide)]; simp

theorem and_FFF0 (w : Word) : (w &&& 0xFFF0).toNat = w.toNat / 4096 * 4096 + w.toNat / 256 % 16 * 256 + w.toNat / 16 % 16 * 16 := by
  rw [and_nibbles w 0xFFF0 15 15 15 0 (by decide) (by decide) (by decide) (by decide) (by decide)]; simp

theorem and_FF0F (w : Word) : (w &&& 0xFF0F).toNat = w.toNat / 4096 * 4096 + w.toNat / 256 % 16 * 256 + w.toNat % 16 := by
  rw [and_nibbles w 0xFF0F 15 15 0 15 (by decide) (by decide) (by decide) (by decide) (by decide)]; simp

theorem and_FFFF (w : Word) : (w &&& 0xFFFF).toNat = w.toNat / 4096 * 4096 + w.toNat / 256 % 16 * 256 + w.toNat / 16 % 16 * 16 + w.toNat % 16 := by
  rw [and_nibbles w 0xFFFF 15 15 15 15 (by decide) (by decide) (by decide) (by decide) (by decide)]; simp

theorem and_000F (w : Word) : (w &&& 0x000F).toNat = w.toNat % 16 := by
  rw [and_nibbles w 0x000F 0 0 0 15 (by decide) (by decide) (by decide) (by decide) (by decide)]; simp

theorem and_00FF (w : Word) : (w &&& 0x00FF).toNat = w.toNat / 16 % 16 * 16 + w.toNat % 16 := by
  rw [and_nibbles w 0x00FF 0 0 15 15 (by decide) (by decide) (by decide) (by decide) (by decide)]; simp

end Sys2Proof
end

