-- ==== Sys2Proof/Laws/PerInstr.lean ====
section
/-! SUPPORT. A law stated of every instruction as syntax: its word lies in its own row of the opcode table (spec
30_encoding.md R65, R84), and the row's mask looks only at bits the dispatch examines (R67, R69, R71). -/

namespace Sys2Proof.Laws

/-- The canonical word of the instruction has its row's pattern under its row's mask, and every mask bit is an examined one. -/
def RowMatch.Statement (i : Instr) : Prop :=
  encode i &&& i.row.mask = i.row.pattern ∧ i.row.mask &&& examinedMask i = i.row.mask

/-! ## One lemma per shape of a row -/

theorem row_of_NNN (f : BitVec 4) (nnn : Addr12) (p : Word) (hp : p.toNat = f.toNat * 4096) :
    wordNNN f nnn &&& 0xF000 = p := by
  have := nnn.isLt
  apply BitVec.eq_of_toNat_eq
  rw [and_F000, wordNNN_toNat]; omega

theorem row_of_XKK (f : BitVec 4) (x : Nibble) (kk : Byte) (p : Word) (hp : p.toNat = f.toNat * 4096) :
    wordXKK f x kk &&& 0xF000 = p := by
  have := kk.isLt
  apply BitVec.eq_of_toNat_eq
  rw [and_F000, wordXKK_toNat]; omega

theorem row_of_XYN (f : BitVec 4) (x y n : Nibble) (p : Word) (hp : p.toNat = f.toNat * 4096) :
    wordXYN f x y n &&& 0xF000 = p := by
  apply BitVec.eq_of_toNat_eq
  rw [and_F000, wordXYN_toNat]; omega

theorem row_of_XYS (f : BitVec 4) (x y n : Nibble) (p : Word) (hp : p.toNat = f.toNat * 4096 + n.val) :
    wordXYN f x y n &&& 0xF00F = p := by
  apply BitVec.eq_of_toNat_eq
  rw [and_F00F, wordXYN_toNat]; omega

theorem row_of_XSS_nibble (f : BitVec 4) (x : Nibble) (kk : Byte) (p : Word) (hp : p.toNat = f.toNat * 4096 + kk.toNat % 16) :
    wordXKK f x kk &&& 0xF00F = p := by
  have := kk.isLt
  apply BitVec.eq_of_toNat_eq
  rw [and_F00F, wordXKK_toNat]; omega

theorem row_of_XSS_byte (f : BitVec 4) (x : Nibble) (kk : Byte) (p : Word) (hp : p.toNat = f.toNat * 4096 + kk.toNat) :
    wordXKK f x kk &&& 0xF0FF = p := by
  have := kk.isLt
  apply BitVec.eq_of_toNat_eq
  rw [and_F0FF, wordXKK_toNat]; omega

theorem and_mask_F000 : (0xF000 : Word) &&& 0xFFFF = 0xF000 := by decide
theorem and_mask_F000_FFF0 : (0xF000 : Word) &&& 0xFFF0 = 0xF000 := by decide
theorem and_mask_F00F : (0xF00F : Word) &&& 0xFFFF = 0xF00F := by decide
theorem and_mask_F00F_FF0F : (0xF00F : Word) &&& 0xFF0F = 0xF00F := by decide
theorem and_mask_F0FF : (0xF0FF : Word) &&& 0xFFFF = 0xF0FF := by decide

/-! ## One lemma per instruction -/

theorem RowMatch.cls : RowMatch.Statement .cls := ⟨by decide, by decide⟩
theorem RowMatch.ret : RowMatch.Statement .ret := ⟨by decide, by decide⟩
theorem RowMatch.jp (nnn : Addr12) : RowMatch.Statement (.jp nnn) := ⟨row_of_NNN _ nnn _ rfl, and_mask_F000⟩
theorem RowMatch.call (nnn : Addr12) : RowMatch.Statement (.call nnn) := ⟨row_of_NNN _ nnn _ rfl, and_mask_F000⟩
theorem RowMatch.seByte (x : Nibble) (kk : Byte) : RowMatch.Statement (.seByte x kk) := ⟨row_of_XKK _ x kk _ rfl, and_mask_F000⟩
theorem RowMatch.sneByte (x : Nibble) (kk : Byte) : RowMatch.Statement (.sneByte x kk) :=
  ⟨row_of_XKK _ x kk _ rfl, and_mask_F000⟩
theorem RowMatch.seReg (x y : Nibble) : RowMatch.Statement (.seReg x y) := ⟨row_of_XYN _ x y _ _ rfl, and_mask_F000_FFF0⟩
theorem RowMatch.ldByte (x : Nibble) (kk : Byte) : RowMatch.Statement (.ldByte x kk) := ⟨row_of_XKK _ x kk _ rfl, and_mask_F000⟩
theorem RowMatch.addByte (x : Nibble) (kk : Byte) : RowMatch.Statement (.addByte x kk) :=
  ⟨row_of_XKK _ x kk _ rfl, and_mask_F000⟩
theorem RowMatch.ldReg (x y : Nibble) : RowMatch.Statement (.ldReg x y) := ⟨row_of_XYS _ x y _ _ rfl, and_mask_F00F⟩
theorem RowMatch.orReg (x y : Nibble) : RowMatch.Statement (.orReg x y) := ⟨row_of_XYS _ x y _ _ rfl, and_mask_F00F⟩
theorem RowMatch.andReg (x y : Nibble) : RowMatch.Statement (.andReg x y) := ⟨row_of_XYS _ x y _ _ rfl, and_mask_F00F⟩
theorem RowMatch.xorReg (x y : Nibble) : RowMatch.Statement (.xorReg x y) := ⟨row_of_XYS _ x y _ _ rfl, and_mask_F00F⟩
theorem RowMatch.addReg (x y : Nibble) : RowMatch.Statement (.addReg x y) := ⟨row_of_XYS _ x y _ _ rfl, and_mask_F00F⟩
theorem RowMatch.sub (x y : Nibble) : RowMatch.Statement (.sub x y) := ⟨row_of_XYS _ x y _ _ rfl, and_mask_F00F⟩
theorem RowMatch.shr (x y : Nibble) : RowMatch.Statement (.shr x y) := ⟨row_of_XYS _ x y _ _ rfl, and_mask_F00F⟩
theorem RowMatch.subn (x y : Nibble) : RowMatch.Statement (.subn x y) := ⟨row_of_XYS _ x y _ _ rfl, and_mask_F00F⟩
theorem RowMatch.shl (x y : Nibble) : RowMatch.Statement (.shl x y) := ⟨row_of_XYS _ x y _ _ rfl, and_mask_F00F⟩
theorem RowMatch.sneReg (x y : Nibble) : RowMatch.Statement (.sneReg x y) := ⟨row_of_XYN _ x y _ _ rfl, and_mask_F000_FFF0⟩
theorem RowMatch.ldI (nnn : Addr12) : RowMatch.Statement (.ldI nnn) := ⟨row_of_NNN _ nnn _ rfl, and_mask_F000⟩
theorem RowMatch.jpV0 (nnn : Addr12) : RowMatch.Statement (.jpV0 nnn) := ⟨row_of_NNN _ nnn _ rfl, and_mask_F000⟩
theorem RowMatch.rnd (x : Nibble) (kk : Byte) : RowMatch.Statement (.rnd x kk) := ⟨row_of_XKK _ x kk _ rfl, and_mask_F000⟩
theorem RowMatch.drw (x y n : Nibble) : RowMatch.Statement (.drw x y n) := ⟨row_of_XYN _ x y n _ rfl, and_mask_F000⟩
theorem RowMatch.skp (x : Nibble) : RowMatch.Statement (.skp x) := ⟨row_of_XSS_nibble _ x _ _ rfl, and_mask_F00F_FF0F⟩
theorem RowMatch.sknp (x : Nibble) : RowMatch.Statement (.sknp x) := ⟨row_of_XSS_nibble _ x _ _ rfl, and_mask_F00F_FF0F⟩
theorem RowMatch.ldVxDT (x : Nibble) : RowMatch.Statement (.ldVxDT x) := ⟨row_of_XSS_byte _ x _ _ rfl, and_mask_F0FF⟩
theorem RowMatch.ldVxK (x : Nibble) : RowMatch.Statement (.ldVxK x) := ⟨row_of_XSS_byte _ x _ _ rfl, and_mask_F0FF⟩
theorem RowMatch.ldDTVx (x : Nibble) : RowMatch.Statement (.ldDTVx x) := ⟨row_of_XSS_byte _ x _ _ rfl, and_mask_F0FF⟩
theorem RowMatch.ldSTVx (x : Nibble) : RowMatch.Statement (.ldSTVx x) := ⟨row_of_XSS_byte _ x _ _ rfl, and_mask_F0FF⟩
theorem RowMatch.addI (x : Nibble) : RowMatch.Statement (.addI x) := ⟨row_of_XSS_byte _ x _ _ rfl, and_mask_F0FF⟩
theorem RowMatch.ldF (x : Nibble) : RowMatch.Statement (.ldF x) := ⟨row_of_XSS_byte _ x _ _ rfl, and_mask_F0FF⟩
theorem RowMatch.ldB (x : Nibble) : RowMatch.Statement (.ldB x) := ⟨row_of_XSS_byte _ x _ _ rfl, and_mask_F0FF⟩
theorem RowMatch.ldMemVx (x : Nibble) : RowMatch.Statement (.ldMemVx x) := ⟨row_of_XSS_byte _ x _ _ rfl, and_mask_F0FF⟩
theorem RowMatch.ldVxMem (x : Nibble) : RowMatch.Statement (.ldVxMem x) := ⟨row_of_XSS_byte _ x _ _ rfl, and_mask_F0FF⟩

end Sys2Proof.Laws
end

