-- ==== Sys2Proof/Laws/Placement.lean ====
section
/-! SUPPORT. A placed word is the word the next step fetches, it changes memory and at most `pc`, and it keeps the memory's
canonical form (logs 7 and 11). -/

namespace Sys2Proof.Machine

variable (s : State)

theorem State.peek_placeWord (a b : Nat) (w : Word) :
    (s.placeWord a w).peek b = if b = a then highByte w else if b = a + 1 then lowByte w else s.peek b := by
  rw [State.placeWord, State.peek_pokeList]
  simp only [List.length_cons, List.length_nil]
  by_cases h : b = a
  · subst b; simp
  · by_cases h1 : b = a + 1
    · subst b; simp
    · rw [if_neg (by omega), if_neg h, if_neg h1]

theorem State.placeWord_eq (a : Nat) (w : Word) : s.placeWord a w = { s with mem := (s.placeWord a w).mem } :=
  State.pokeList_eq ..

/-- The `pc` a placed word is fetched from is a fetchable one. -/
theorem State.placeAtFetch_pc (w : Word) :
    (s.placeAtFetch w).pc = if s.pc.toNat ≤ 0xFFE then s.pc else 0x0200 := by
  simp only [State.placeAtFetch]
  split <;> rw [State.placeWord_eq]

/-- The next step fetches the placed word. -/
theorem fetchWord_placeAtFetch (w : Word) : fetchWord (s.placeAtFetch w) = .ok w := by
  have hp : (s.placeAtFetch w).pc.toNat ≤ 0xFFE := by
    rw [State.placeAtFetch_pc]
    split
    · assumption
    · decide
  rw [fetchWord_ok _ hp]
  simp only [State.placeAtFetch]
  split
  · rw [show (s.placeWord s.pc.toNat w).pc = s.pc by rw [State.placeWord_eq], State.peek_placeWord, State.peek_placeWord,
      if_pos rfl, if_neg (by omega), if_pos rfl, joinBytes_highByte_lowByte]
  · rw [show (({ s with pc := 0x0200 } : State).placeWord 0x0200 w).pc = 0x0200 by rw [State.placeWord_eq],
      State.peek_placeWord, State.peek_placeWord]
    simp

/-- Placing a word keeps the memory's canonical form. -/
theorem State.placeAtFetch_wf (w : Word) (h : Memory.wf s.cfg s.mem) :
    Memory.wf (s.placeAtFetch w).cfg (s.placeAtFetch w).mem := by
  simp only [State.placeAtFetch]
  split
  · exact State.pokeList_wf _ _ _ h (by simp [memSize]; omega)
  · exact State.pokeList_wf ({ s with pc := 0x0200 } : State) _ _ h (by simp [memSize])

end Sys2Proof.Machine
end

