-- ==== Sys2Proof/Tests/Slice0.lean ====
section
/-! SUPPORT. Tests. Expected values come from the spec: the words of 30_encoding.md R84, the examples of the instruction rules,
and the test vectors T1-T93 of 95_test_vectors.md (named in each test). Each test of an instruction is one step on a small
state. At the end, for every statement with hypotheses, states and operands that meet them. -/

namespace Sys2Proof.Tests

open Sys2Proof.Machine Sys2Proof.Claims

/-! ## Small states -/

/-- The machine after reset with one word at 0x200. -/
def start (w : Word) : State := State.reset.withFetchWord 16 w.toNat

/-- The state after one cycle. -/
def after (s : State) : State := (cycle s).state

/-- The outcome of one cycle. -/
def reply (s : State) : Reply := (cycle s).reply

/-- Registers set from a list of numbers and values. -/
def State.withV (s : State) (vs : List (Nibble × Byte)) : State := vs.foldl (fun t p => t.writeV p.1 p.2) s

/-- `sp` and the slot below it. -/
def State.withTop (s : State) (n : Fin 17) (j : Fin 16) (w : Word) : State := { s with sp := n, stack := s.stack.set j.val w j.isLt }

/-- Timers stepped by the host only. -/
def State.uncoupled (s : State) : State := { s with cfg := { s.cfg with timerCoupled := false } }

/-! ## Well-formed words: each check refuses an ill-formed one -/

theorem test_smoke_family0 : canonicalWord 0x00E0 = true ∧ canonicalWord 0x0120 = false ∧ canonicalWord 0x0001 = false := by decide
theorem test_smoke_family5 : canonicalWord 0x5120 = true ∧ canonicalWord 0x5121 = false := by decide
theorem test_smoke_family8 : canonicalWord 0x812E = true ∧ canonicalWord 0x8128 = false := by decide
theorem test_smoke_family9 : canonicalWord 0x9120 = true ∧ canonicalWord 0x9121 = false := by decide
theorem test_smoke_familyE : canonicalWord 0xE39E = true ∧ canonicalWord 0xE30E = false := by decide
theorem test_smoke_familyF : canonicalWord 0xF365 = true ∧ canonicalWord 0xF366 = false := by decide

/-! ## Decoding: every instruction's word, written out from R63, R65 and R84 -/

theorem test_decode_control :
    decodeBytes [0x00, 0xE0] = .ok (.cls, []) ∧ decodeBytes [0x00, 0xEE] = .ok (.ret, []) ∧
    decodeBytes [0x12, 0x34] = .ok (.jp 0x234, []) ∧ decodeBytes [0x2A, 0xBC] = .ok (.call 0xABC, []) ∧
    decodeBytes [0x3C, 0x42] = .ok (.seByte 12 0x42, []) ∧ decodeBytes [0x4D, 0x24] = .ok (.sneByte 13 0x24, []) ∧
    decodeBytes [0x51, 0x20] = .ok (.seReg 1 2, []) ∧ decodeBytes [0x93, 0x40] = .ok (.sneReg 3 4, []) ∧
    decodeBytes [0xBF, 0xED] = .ok (.jpV0 0xFED, []) := by decide

theorem test_decode_registers :
    decodeBytes [0x6A, 0x42] = .ok (.ldByte 10 0x42, []) ∧ decodeBytes [0x7B, 0x01] = .ok (.addByte 11 0x01, []) ∧
    decodeBytes [0x81, 0x20] = .ok (.ldReg 1 2, []) ∧ decodeBytes [0x81, 0x21] = .ok (.orReg 1 2, []) ∧
    decodeBytes [0x81, 0x22] = .ok (.andReg 1 2, []) ∧ decodeBytes [0x81, 0x23] = .ok (.xorReg 1 2, []) := by decide

theorem test_decode_flag_registers :
    decodeBytes [0x81, 0x24] = .ok (.addReg 1 2, []) ∧ decodeBytes [0x81, 0x25] = .ok (.sub 1 2, []) ∧
    decodeBytes [0x81, 0x26] = .ok (.shr 1 2, []) ∧ decodeBytes [0x81, 0x27] = .ok (.subn 1 2, []) ∧
    decodeBytes [0x81, 0x2E] = .ok (.shl 1 2, []) ∧ decodeBytes [0xC3, 0x0F] = .ok (.rnd 3 0x0F, []) := by decide

theorem test_decode_index_display :
    decodeBytes [0xA2, 0x50] = .ok (.ldI 0x250, []) ∧ decodeBytes [0xF1, 0x1E] = .ok (.addI 1, []) ∧
    decodeBytes [0xF2, 0x29] = .ok (.ldF 2, []) ∧ decodeBytes [0xF3, 0x33] = .ok (.ldB 3, []) ∧
    decodeBytes [0xF4, 0x55] = .ok (.ldMemVx 4, []) ∧ decodeBytes [0xF5, 0x65] = .ok (.ldVxMem 5, []) ∧
    decodeBytes [0xD1, 0x25] = .ok (.drw 1 2 5, []) := by decide

theorem test_decode_keys_timers :
    decodeBytes [0xE3, 0x9E] = .ok (.skp 3, []) ∧ decodeBytes [0xE4, 0xA1] = .ok (.sknp 4, []) ∧
    decodeBytes [0xF5, 0x07] = .ok (.ldVxDT 5, []) ∧ decodeBytes [0xF6, 0x0A] = .ok (.ldVxK 6, []) ∧
    decodeBytes [0xF7, 0x15] = .ok (.ldDTVx 7, []) ∧ decodeBytes [0xF8, 0x18] = .ok (.ldSTVx 8, []) := by decide

/-- Aliases (R67, R69, R71, R81; T7-T10) and refusals by name (R78). -/
theorem test_decode_aliases_and_unmapped :
    decodeWord 0x0000 = .ok .cls ∧ decodeWord 0x0FFE = .ok .ret ∧ decodeWord 0xE30E = .ok (.skp 3) ∧
    decodeWord 0xE371 = .ok (.sknp 3) ∧ decodeWord 0x5127 = .ok (.seReg 1 2) ∧ decodeWord 0x912F = .ok (.sneReg 1 2) ∧
    decodeWord 0x0001 = .error (.unmapped0 0x0001) ∧ decodeWord 0x800F = .error (.unmapped8 0x800F) ∧
    decodeWord 0xE002 = .error (.unmappedE 0xE002) ∧ decodeWord 0xF000 = .error (.unmappedF 0xF000) ∧
    decodeBytes [0x12] = .error .truncated := by decide

/-- The table's numbering: bit 0 is the least significant bit of the word. -/
theorem test_decode_table_word :
    decodeTableWord 16 0x6A42 = some (.ldByte 10 0x42) ∧ decodeTableWord 16 0xF000 = none := by decide

/-! ## Fetch and the cycle -/

theorem test_fetch_order : fetchWord (start 0xA250) = .ok 0xA250 ∧ (start 0xA250).peek 0x200 = 0xA2 := by decide

/-- T13: the fetch check; nothing changes. -/
theorem test_fetch_above_0xFFE : cycle (start 0x6000 |>.writePc 0xFFF) =
    ⟨.returned (.fatal (.memoryOutOfBounds 0xFFF)), start 0x6000 |>.writePc 0xFFF⟩ := by decide

/-- R28, R54: an odd `pc` fetches like any other. -/
theorem test_fetch_odd_pc : fetchWord ((start 0x12A2).writePc 0x201) = .ok 0xA200 := by decide

/-- An unmapped word is a completed no-op and the timers count (R79, R128). -/
theorem test_unmapped : reply (start 0x8128) = .returned (.invalidOpcode 0x8128) ∧ (after (start 0x8128)).pc = 0x202 ∧
    (after ((start 0x8128).writeDT 3)).DT = 2 := by decide

/-- A word placed above the last fetchable address is placed at 0x200 (log 11). -/
theorem test_withFetchWord : fetchWord ((State.reset.writePc 0xFFF).withFetchWord 16 0x6A42) = .ok 0x6A42 ∧
    ((State.reset.writePc 0x300).withFetchWord 16 0x6A42).peek 0x301 = 0x42 := by decide

/-! ## Control flow (T7, T12-T26) -/

theorem test_ret : (after (State.withTop (start 0x00EE) 1 0 0x0202)).pc = 0x0202 ∧
    (after (State.withTop (start 0x00EE) 1 0 0x0202)).sp = 0 := by decide
theorem test_ret_empty : reply (start 0x00EE) = .returned (.fatal .stackUnderflow) ∧ (after (start 0x00EE)).pc = 0x202 := by decide
theorem test_jp : (after (start 0x1234)).pc = 0x234 := by decide
theorem test_call : (after { start 0x2300 with sp := 15 }).stack[15] = 0x202 ∧
    (after { start 0x2300 with sp := 15 }).sp = 16 ∧ (after { start 0x2300 with sp := 15 }).pc = 0x300 := by decide
theorem test_call_full : reply { start 0x2300 with sp := 16 } = .returned (.fatal .stackOverflow) ∧
    (after { (start 0x2300).writeDT 5 with sp := 16 }).DT = 5 := by decide
theorem test_se_byte : (after (State.withV (start 0x3342) [(3, 0x42)])).pc = 0x204 ∧
    (after (State.withV (start 0x3343) [(3, 0x42)])).pc = 0x202 := by decide
theorem test_sne_byte : (after (State.withV (start 0x4342) [(3, 0x42)])).pc = 0x202 ∧
    (after (State.withV (start 0x4343) [(3, 0x42)])).pc = 0x204 := by decide
theorem test_se_reg : (after (start 0x5450)).pc = 0x204 ∧ (after (State.withV (start 0x5450) [(4, 1)])).pc = 0x202 := by decide
theorem test_sne_reg : (after (start 0x9450)).pc = 0x202 ∧
    (after (State.withV (start 0x9450) [(4, 1), (5, 2)])).pc = 0x204 := by decide
theorem test_jp_v0 : (after (State.withV (start 0xB300) [(0, 0x10)])).pc = 0x310 := by decide
theorem test_jp_v0_not_wrapped : (after (State.withV (start 0xBFFF) [(0, 0xFF)])).pc = 0x10FE := by decide

/-! ## Registers and ALU (T27-T49) -/

theorem test_ld_byte : (after (start 0x6AFF)).readV 10 = 0xFF := by decide
theorem test_add_byte : (after (State.withV (start 0x7001) [(0, 0xFF), (15, 0)])).V =
    (State.reset).V := by decide
theorem test_add_byte_vf : (after (State.withV (start 0x7FFF) [(15, 1)])).readV 15 = 0 := by decide
theorem test_ld_reg : (after (State.withV (start 0x8010) [(1, 0x3C)])).readV 0 = 0x3C := by decide
theorem test_or : (after (State.withV (start 0x8011) [(0, 0xF0), (1, 0x0F), (15, 7)])).readV 0 = 0xFF ∧
    (after (State.withV (start 0x8011) [(0, 0xF0), (1, 0x0F), (15, 7)])).readV 15 = 7 := by decide
theorem test_and : (after (State.withV (start 0x8012) [(0, 0xF0), (1, 0x3C)])).readV 0 = 0x30 := by decide
theorem test_xor : (after (State.withV (start 0x8013) [(0, 0xFF), (1, 0x0F)])).readV 0 = 0xF0 := by decide
theorem test_add_reg : (after (State.withV (start 0x8004) [(0, 0x80)])).readV 0 = 0 ∧
    (after (State.withV (start 0x8004) [(0, 0x80)])).readV 15 = 1 := by decide
theorem test_add_reg_vf : (after (State.withV (start 0x8F14) [(15, 0xF0), (1, 0x20)])).readV 15 = 0x10 ∧
    (after (State.withV (start 0x81F4) [(15, 1), (1, 0x10)])).readV 1 = 0x11 := by decide
theorem test_sub : (after (State.withV (start 0x8015) [(0, 3), (1, 5), (15, 9)])).readV 0 = 0xFE ∧
    (after (State.withV (start 0x8015) [(0, 3), (1, 5), (15, 9)])).readV 15 = 0 := by decide
theorem test_sub_equal : (after (State.withV (start 0x8005) [(0, 5), (15, 9)])).readV 15 = 0 ∧
    (after (State.withV (start 0x8015) [(0, 5), (1, 3)])).readV 15 = 1 := by decide
theorem test_shr : (after (State.withV (start 0x8016) [(0, 5), (1, 0xFF)])).readV 0 = 2 ∧
    (after (State.withV (start 0x8016) [(0, 5), (1, 0xFF)])).readV 15 = 1 := by decide
theorem test_shr_vf : (after (State.withV (start 0x8F06) [(15, 3)])).readV 15 = 1 := by decide
theorem test_subn : (after (State.withV (start 0x8017) [(0, 3), (1, 5)])).readV 0 = 2 ∧
    (after (State.withV (start 0x8017) [(0, 3), (1, 5)])).readV 15 = 1 := by decide
theorem test_subn_borrow : (after (State.withV (start 0x8017) [(0, 5), (1, 3)])).readV 0 = 0xFE ∧
    (after (State.withV (start 0x8017) [(0, 5), (1, 3), (15, 9)])).readV 15 = 0 := by decide
theorem test_shl : (after (State.withV (start 0x801E) [(0, 0x81)])).readV 0 = 2 ∧
    (after (State.withV (start 0x801E) [(0, 0x81)])).readV 15 = 1 := by decide
theorem test_shl_vf : (after (State.withV (start 0x8F0E) [(15, 0x81)])).readV 15 = 2 := by decide
/-- The draw is a free value, so it is given here (R107). -/
theorem test_rnd : (rndWith 0xAB 0 0xF0 State.reset).readV 0 = 0xA0 ∧ (rndWith 0xAB 0 0x00 State.reset).readV 0 = 0 := by decide
theorem test_rnd_step : ∀ d : Byte, (rndWith d 3 0x00 State.reset).drawCount = 1 := by intro d; rfl

/-! ## Index register and memory (T50-T66) -/

theorem test_ld_i : (after (start 0xAFFF)).I = 0xFFF := by decide
theorem test_add_i : (after (State.withV ((start 0xF01E).writeI 0xFF0) [(0, 0x0F)])).I = 0xFFF := by decide
theorem test_add_i_fault : reply (State.withV ((start 0xF01E).writeI 0xFFF) [(0, 1)]) =
    .returned (.fatal (.memoryOutOfBounds 0x1000)) := by decide
theorem test_ld_f : (after (State.withV (start 0xF029) [(0, 0x0F)])).I = 0x09B ∧
    (after (State.withV (start 0xF029) [(0, 0xFF)])).I = 0x54B := by decide
theorem test_ld_b : (after (State.withV ((start 0xF033).writeI 0x300) [(0, 0xFE)])).peekList 0x300 3 = [2, 5, 4] := by decide
theorem test_ld_b_fault : (after (State.withV ((start 0xF033).writeI 0xFFE) [(0, 0xFE)])).peekList 0xFFE 2 = [0, 0] ∧
    reply (State.withV ((start 0xF033).writeI 0xFFE) [(0, 0xFE)]) = .returned (.fatal (.memoryOutOfBounds 0x1000)) := by decide
theorem test_ld_mem_vx : (after (State.withV (((start 0xF255).writeI 0x300).poke 0x303 0x77)
    [(0, 1), (1, 2), (2, 3)])).peekList 0x300 4 = [1, 2, 3, 0x77] := by decide
theorem test_ld_mem_vx_edge : reply ((start 0xFF55).writeI 0xFF0) = .returned .ok ∧
    reply ((start 0xFF55).writeI 0xFF1) = .returned (.fatal (.memoryOutOfBounds 0x1000)) := by decide
theorem test_ld_vx_mem : (after (State.withV ((((start 0xF165).writeI 0x300).poke 0x300 0x0A).poke 0x301 7)
    [(2, 0x55)])).readVs 0 3 = [0x0A, 7, 0x55] := by decide
theorem test_ld_vx_mem_vf : (after (((start 0xFF65).writeI 0x300).poke 0x30F 0x99)).readV 15 = 0x99 := by decide

/-- Writing back what reset leaves takes the cell off the list (log 8). -/
theorem test_memory_canonical : ((State.reset.poke 0x50 0x11).poke 0x50 0xF0).mem = [] ∧
    ((State.reset.poke 0x300 2).poke 0x100 1).mem = [(0x100, 1), (0x300, 2)] := by decide

/-! ## Display (T67-T75 and the example of R115) -/

theorem test_cls : (after ((start 0x00E0).writeFb (Vector.replicate 32 (Vector.replicate 64 true)))).pixel 63 31 = false ∧
    (after (State.withV ((start 0x00E0).writeFb (Vector.replicate 32 (Vector.replicate 64 true))) [(15, 3)])).readV 15 = 3 := by
  decide
/-- Glyph 0 at the origin: the 14 pixels R115 lists. -/
theorem test_drw_glyph : spritePixels 0 0 (State.reset.peekList 0x50 5) =
    [(0, 0), (1, 0), (2, 0), (3, 0), (0, 1), (3, 1), (0, 2), (3, 2), (0, 3), (3, 3), (0, 4), (1, 4), (2, 4), (3, 4)] ∧
    (after ((start 0xD015).writeI 0x50)).pixel 3 1 = true ∧ (after ((start 0xD015).writeI 0x50)).pixel 1 1 = false := by decide
/-- T68: wrapped right and down, 12 pixels. -/
theorem test_drw_wraps : spritePixels 62 30 [0xFF, 0x81, 0x81] =
    [(62, 30), (63, 30), (0, 30), (1, 30), (2, 30), (3, 30), (4, 30), (5, 30), (62, 31), (5, 31), (62, 0), (5, 0)] ∧
    (after (State.withV ((((start 0xD013).writeI 0x300).poke 0x302 0x81)) [(0, 62), (1, 30)])).pixel 5 0 = true := by decide
/-- T73, T74: only an on-to-off toggle is a collision. -/
theorem test_drw_collision :
    (after (((start 0xD001).writeI 0x300).poke 0x300 0x80 |>.writeFb (fbSet clearFb (0, 0) true))).pixel 0 0 = false ∧
    (after (((start 0xD001).writeI 0x300).poke 0x300 0x80 |>.writeFb (fbSet clearFb (0, 0) true))).readV 15 = 1 ∧
    (after (((start 0xD001).writeI 0x300).poke 0x300 0x80 |>.writeFb (fbSet clearFb (1, 0) true))).readV 15 = 0 := by decide
theorem test_drw_zero_rows_and_fault : (after (State.withV (start 0xD010) [(15, 5)])).readV 15 = 0 ∧
    reply ((start 0xD015).writeI 0xFFC) = .returned (.fatal (.memoryOutOfBounds 0x1000)) ∧
    reply ((start 0xD015).writeI 0xFFB) = .returned .ok := by decide

/-! ## Keypad and timers (T11, T76-T90) -/

theorem test_skp : (after (State.withV ((start 0xE09E).writeKey 3 true) [(0, 3)])).pc = 0x204 ∧
    (after (State.withV (start 0xE09E) [(0, 3)])).pc = 0x202 := by decide
theorem test_skp_fault : reply (State.withV (start 0xE09E) [(0, 0x10)]) = .returned (.fatal (.keyIndexOutOfRange 0x10)) := by decide
theorem test_sknp : (after (State.withV ((start 0xE0A1).writeKey 3 true) [(0, 3)])).pc = 0x202 ∧
    (after (State.withV (start 0xE0A1) [(0, 3)])).pc = 0x204 := by decide
theorem test_ld_vx_dt : (after ((start 0xF307).writeDT 0x3C)).readV 3 = 0x3C ∧ (after ((start 0xF307).writeDT 0x3C)).DT = 0x3B := by
  decide
theorem test_ld_vx_k : (after (((start 0xF20A).writeKey 9 true).writeKey 5 true)).readV 2 = 5 ∧
    (after (((start 0xF20A).writeKey 9 true).writeKey 5 true)).pc = 0x202 := by decide
theorem test_ld_vx_k_waits : (after ((start 0xF20A).writeDT 2)).pc = 0x200 ∧ (after ((start 0xF20A).writeDT 2)).DT = 1 := by decide
theorem test_ld_dt_vx : (after (State.withV (start 0xF015) [(0, 0x10)])).DT = 0x0F ∧
    (after (State.withV (State.uncoupled (start 0xF015)) [(0, 0x10)])).DT = 0x10 := by decide
theorem test_ld_st_vx : (after (State.withV (start 0xF118) [(1, 2)])).ST = 1 ∧
    soundOn (after (State.withV (start 0xF118) [(1, 1)])) = false := by decide
theorem test_tick_timers : (hostTickTimers ((State.reset.writeDT 1).writeST 2)).state.ST = 1 ∧
    (hostTickTimers State.reset).state.DT = 0 := by decide
theorem test_set_key : hostSetKey 16 true State.reset = ⟨.refused (.keyIndex 16), State.reset⟩ ∧
    (hostSetKey 15 true State.reset).state.readKey 15 = true := by decide

/-! ## Loader and reset (T91-T93) -/

theorem test_load : (hostLoad [0x12, 0x00] (State.withV (State.reset.poke 0x204 0xAA) [(0, 5)])).state.peekList 0x200 5 =
    [0x12, 0, 0, 0, 0xAA] ∧ (hostLoad [] State.reset) = ⟨.returned .ok, State.reset⟩ := by decide
theorem test_reset : (hostReset (State.withV ((start 0x1234).writePc 0x300) [(3, 9)])).state = State.reset ∧
    State.reset.peek 0x09F = 0x80 := by decide

/-! ## Witnesses: states and operands that meet the hypotheses of each statement, clause by clause -/

/-- The last address that is fetched, and the first that is not. -/
theorem witness_StepRunsTheDecodedInstruction : ((State.reset.writePc 0xFFE).withFetchWord 16 0x6A42).pc.toNat ≤ 0xFFE ∧
    decodeBytes [((State.reset.writePc 0xFFE).withFetchWord 16 0x6A42).peek 0xFFE,
      ((State.reset.writePc 0xFFE).withFetchWord 16 0x6A42).peek 0xFFF] = .ok (.ldByte 10 0x42, []) := by decide

theorem witness_CycleFollowsItsFiveSteps : 0xFFE < (State.reset.writePc 0xFFF).pc.toNat ∧
    (start 0xF000).pc.toNat ≤ 0xFFE ∧ decodeWord (wordAt (start 0xF000)) = .error (.unmappedF 0xF000) ∧
    decodeWord (wordAt (start 0x00E0)) = .ok .cls ∧ decodeWord (wordAt (start 0x00EE)) = .ok .ret := by decide

theorem witness_UnmappedWordIsACompletedNoOp : (start 0x8008).pc.toNat ≤ 0xFFE ∧ UnmappedWord (wordAt (start 0x8008)) := by
  refine ⟨by decide, .inr (.inl ?_)⟩
  decide

theorem witness_FatalOutcomeLeavesOnlyFetchAndAdvance :
    (cycle (start 0x00EE)).reply = .returned (.fatal .stackUnderflow) ∧ (start 0x00EE).pc.toNat ≤ 0xFFE ∧
    (cycle (State.reset.writePc 0xFFF)).reply = .returned (.fatal (.memoryOutOfBounds 0xFFF)) ∧
    0xFFE < (State.reset.writePc 0xFFF).pc.toNat := by decide

theorem witness_CompletedCycleCountsTimersOnce : step ((start 0xF115).writeST 7) = .next (after ((start 0xF115).writeST 7)) := by
  rfl

theorem witness_DeadStackSlotsAreUnobservable : AgreeBelowSp State.reset (State.withTop State.reset 0 5 0x300) ∧
    State.reset ≠ State.withTop State.reset 0 5 0x300 := by
  refine ⟨⟨by decide, fun j hj => absurd hj (Nat.not_lt_zero _)⟩, by decide⟩

theorem witness_HostRunsNeverSeeDeadStackSlots : AgreeBelowSp (State.withTop State.reset 1 0 0x202)
    (State.withTop (State.withTop State.reset 1 0 0x202) 1 15 0x300) := by
  refine ⟨by decide, ?_⟩
  decide

theorem witness_SelfJumpStaysInPlace : (start 0x1200).pc.toNat ≤ 0xFFE ∧ wordAt (start 0x1200) = encode (.jp 0x200) ∧
    (start 0x1200).pc.toNat = (0x200 : Addr12).toNat := by decide

/-- A state that meets the invariant and a step from it; its `stack`, `I` and `pc` are at their bounds. -/
theorem witness_StepKeepsTheInvariant :
    ({ (State.reset.writePc 0xFFE).writeI 0xFFF with stack := Vector.replicate 16 0x1000 } : State).Inv ∧
    step ((State.reset.writePc 0xFFE).writeI 0xFFF) = .next (after ((State.reset.writePc 0xFFE).writeI 0xFFF)) :=
  ⟨⟨by decide, by decide, by decide, by decide⟩, rfl⟩

theorem witness_HostCallKeepsTheInvariant : ((start 0x1234).writePc 0x10FE).Inv :=
  ⟨by decide, by decide, by decide, by decide⟩

theorem witness_LoadCopiesTheRomOrNothing :
    (List.replicate 3584 (0xFF : Byte)).length ≤ 3584 ∧ 3584 < (List.replicate 3585 (0xFF : Byte)).length := by
  simp only [List.length_replicate]; decide

theorem witness_SetKeyWritesOneKey : 15 < 16 ∧ 16 ≤ 16 ∧ ((15 : Nibble).val = 15) := by decide

theorem witness_MemoryReadsBackWhatWasWritten : 0xFFF ≤ 0xFFF ∧ 0xFFF < 0x1000 ∧ (0xFFE : Nat) ≠ 0xFFF := by decide

theorem witness_ReturnPopsTheCallStack :
    (State.withTop State.reset 16 15 0x202).sp.val = (15 : Fin 16).val + 1 ∧
    (State.withTop State.reset 1 0 0x202).sp.val = (0 : Fin 16).val + 1 ∧
    (start 0x00EE).sp.val = 0 ∧ (start 0x00EE).pc.toNat ≤ 0xFFE ∧ decodeWord (wordAt (start 0x00EE)) = .ok .ret := by decide

theorem witness_CallPushesTheAdvancedPcAndJumps :
    ({ State.reset with sp := 15 } : State).sp.val < 16 ∧ ({ start 0x2300 with sp := 16 } : State).sp.val = 16 ∧
    ({ start 0x2300 with sp := 16 } : State).pc.toNat ≤ 0xFFE ∧
    decodeWord (wordAt { start 0x2300 with sp := 16 }) = .ok (.call 0x300) := by decide

theorem witness_RecordedOpcodeNeverMatters : (State.reset.writePc 0xFFE).pc.toNat ≤ 0xFFE := by decide

theorem witness_CallThenReturnComesBack : ∃ t, exec (.call 0x300) State.reset = .next t ∧
    (t.writePc 0x310).stack = t.stack ∧ (t.writePc 0x310).sp = t.sp := ⟨_, rfl, rfl, rfl⟩

theorem witness_ShiftsGiveResultAndShiftedOutBit : (3 : Nibble) ≠ 15 ∧ (0 : Nibble) ≠ 3 ∧ (0 : Nibble) ≠ 15 := by decide

theorem witness_OnlyRandomTakesADraw : exec .cls State.reset = .next (State.reset.writeFb clearFb) ∧
    ∀ x kk, Instr.cls ≠ .rnd x kk := ⟨rfl, nofun⟩

theorem witness_AddToIndexIsExactOrFaults :
    (State.withV (State.reset.writeI 0xFF0) [(0, 0x0F)]).I.toNat + ((State.withV (State.reset.writeI 0xFF0) [(0, 0x0F)]).readV 0).toNat
      ≤ 0xFFF ∧
    0xFFF < (State.withV (State.reset.writeI 0xFFF) [(0, 1)]).I.toNat +
      ((State.withV (State.reset.writeI 0xFFF) [(0, 1)]).readV 0).toNat := by decide

theorem witness_DecimalDigitsAreStoredAtIndex :
    (State.reset.writeI 0xFFD).I.toNat + 2 ≤ 0xFFF ∧ 0xFFF < (State.reset.writeI 0xFFE).I.toNat + 2 := by decide

theorem witness_RegistersAreStoredFromIndex :
    (State.reset.writeI 0xFF0).I.toNat + (15 : Nibble).val ≤ 0xFFF ∧
    0xFFF < (State.reset.writeI 0xFF1).I.toNat + (15 : Nibble).val := by decide

theorem witness_RegistersAreLoadedFromIndex :
    (State.reset.writeI 0xFFF).I.toNat + (0 : Nibble).val ≤ 0xFFF ∧
    0xFFF < (State.reset.writeI 0xFFF).I.toNat + (1 : Nibble).val := by decide

theorem witness_StoreThenLoadRestoresRegisters : ∃ t, exec (.ldMemVx 15) (State.reset.writeI 0xFF0) = .next t ∧
    (t.writeV 3 9).mem = t.mem ∧ (t.writeV 3 9).cfg = t.cfg ∧ (t.writeV 3 9).I = t.I :=
  ⟨_, (execLdMemVx_next_iff _ _ _).2 ⟨by decide, rfl⟩, State.writeV_mem .., State.writeV_cfg .., State.writeV_I ..⟩

/-- A sprite at the top of memory, a covered pixel, an uncovered one, and a sprite past memory. -/
theorem witness_DrawInvertsExactlyTheSpritePixels :
    SpriteInMemory (State.reset.writeI 0xFFB) 5 ∧ ¬ SpriteInMemory (State.reset.writeI 0xFFC) 5 ∧
    SpriteCovers (State.reset.writeI 0x50) 0 1 5 0 0 ∧ ¬ SpriteCovers (State.reset.writeI 0xFFB) 0 1 5 0 0 := by
  refine ⟨.inr (by decide), fun h => ?_, ⟨0, 0, by decide⟩, ?_⟩
  · rcases h with h | h <;> revert h <;> decide
  · rintro ⟨row, col, hr, hc, hb, -⟩
    have h0 : ∀ r, r < 5 → (State.reset.writeI 0xFFB).peek ((State.reset.writeI 0xFFB).I.toNat + r) = 0 := by decide
    rw [h0 row hr] at hb
    simp at hb

theorem witness_SecondDrawRestoresThePixels : ∃ t, exec (.drw 0 1 5) (State.reset.writeI 0x50) = .next t ∧ t.fb = t.fb ∧
    t.mem = (State.reset.writeI 0x50).mem ∧ t.cfg = (State.reset.writeI 0x50).cfg ∧ t.I = (State.reset.writeI 0x50).I ∧
    t.readV 0 = (State.reset.writeI 0x50).readV 0 ∧ t.readV 1 = (State.reset.writeI 0x50).readV 1 ∧
    ∀ px py, (State.reset.writeI 0x50).pixel px py = false :=
  ⟨_, rfl, rfl, rfl, rfl, rfl, rfl, rfl, fun px py => by simp [State.pixel, State.reset, State.powerUp, State.writeI]⟩

theorem witness_KeySkipsFollowTheKey :
    ((State.withV State.reset [(0, 0x0F)]).readV 0).toNat = (15 : Nibble).val ∧
    0x0F < ((State.withV State.reset [(0, 0x10)]).readV 0).toNat := by decide

theorem witness_KeyWaitTakesTheLeastKeyOrRepeats :
    ((State.reset.writeKey 15 true).readKey 15 = true ∧ ∀ j : Nibble, j < 15 → (State.reset.writeKey 15 true).readKey j = false) ∧
    (∀ k, (start 0xF20A).readKey k = false) ∧ (start 0xF20A).pc.toNat ≤ 0xFFE ∧
    decodeWord (wordAt (start 0xF20A)) = .ok (.ldVxK 2) := by decide

theorem witness_OnlyListedRegistersAreWritten :
    exec (.sub 3 4) State.reset = .next (State.reset.writeFlagThenV 0 3 0) ∧ ¬ MayWriteV (.sub 3 4) State.reset 4 := by
  refine ⟨rfl, ?_⟩
  simp [MayWriteV]

theorem witness_OnlyStoresChangeMemory : ∃ t, exec (.ldB 0) (State.withV (State.reset.writeI 0x300) [(0, 123)]) = .next t ∧
    t.peek 0x302 ≠ (State.withV (State.reset.writeI 0x300) [(0, 123)]).peek 0x302 := ⟨_, rfl, by decide⟩

theorem witness_OtherStateChangesOnlyWhereTheSpecSays :
    (∃ t, exec (.ldF 1) State.reset = .next t ∧ t.I ≠ State.reset.I) ∧
    (∃ t, exec (.call 0x300) State.reset = .next t ∧ t.sp ≠ State.reset.sp ∧ t.stack ≠ State.reset.stack) ∧
    (∃ t, exec (.ldDTVx 0) (State.reset.writeDT 1) = .next t ∧ t.DT ≠ (State.reset.writeDT 1).DT) ∧
    (∃ t, exec (.ldSTVx 0) (State.reset.writeST 1) = .next t ∧ t.ST ≠ (State.reset.writeST 1).ST) :=
  ⟨⟨_, rfl, by decide⟩, ⟨_, rfl, by decide, by decide⟩, ⟨_, rfl, by decide⟩, ⟨_, rfl, by decide⟩⟩

theorem witness_OtherStateChangesOnlyWhereTheSpecSays_pixels :
    ∃ t, exec .cls (State.reset.writeFb (fbSet clearFb (0, 0) true)) = .next t ∧ t.fb ≠ fbSet clearFb (0, 0) true :=
  ⟨_, rfl, fun h => by simpa [State.writeFb] using congrArg (fbGet · (0, 0)) h⟩

theorem witness_PcChangesOnlyInTheListedWays : ∃ t, exec (.jpV0 0xFFF) (State.withV State.reset [(0, 0xFF)]) = .next t ∧
    t.pc ≠ (State.withV State.reset [(0, 0xFF)]).pc := ⟨_, rfl, by decide⟩

end Sys2Proof.Tests
end

section
/-! PROOFS. Family 10_state.md: what the recorded opcode can influence (R36), which general registers a handler writes (R21),
and the values of creation and reset (R39). -/

namespace Sys2Proof.Machine

variable {i : Instr} {s t : State}

/-! ## What a handler leaves unchanged -/

@[simp] theorem State.skipIf_key (s : State) (c : Bool) : (s.skipIf c).key = s.key := by rw [State.skipIf_eq]
@[simp] theorem State.skipIf_curOp (s : State) (c : Bool) : (s.skipIf c).curOp = s.curOp := by rw [State.skipIf_eq]
@[simp] theorem State.skipIf_cfg (s : State) (c : Bool) : (s.skipIf c).cfg = s.cfg := by rw [State.skipIf_eq]
@[simp] theorem State.readV_skipIf (s : State) (c : Bool) (r : Nibble) : (s.skipIf c).readV r = s.readV r := by
  rw [State.skipIf_eq]; rfl

@[simp] theorem State.pokeList_key (s : State) (a : Nat) (bytes : List Byte) : (s.pokeList a bytes).key = s.key := by
  rw [State.pokeList_eq]
@[simp] theorem State.pokeList_curOp (s : State) (a : Nat) (bytes : List Byte) :
    (s.pokeList a bytes).curOp = s.curOp := by rw [State.pokeList_eq]
@[simp] theorem State.pokeList_cfg (s : State) (a : Nat) (bytes : List Byte) : (s.pokeList a bytes).cfg = s.cfg := by
  rw [State.pokeList_eq]

@[simp] theorem State.writeVs_key (s : State) (k : Nat) (bytes : List Byte) : (s.writeVs k bytes).key = s.key := by
  rw [State.writeVs_eq]
@[simp] theorem State.writeVs_curOp (s : State) (k : Nat) (bytes : List Byte) :
    (s.writeVs k bytes).curOp = s.curOp := by rw [State.writeVs_eq]
@[simp] theorem State.writeVs_cfg (s : State) (k : Nat) (bytes : List Byte) : (s.writeVs k bytes).cfg = s.cfg := by
  rw [State.writeVs_eq]

/-- No handler changes the keys (R33), the recorded opcode (R36) or the configuration (log 1). -/
theorem exec_keeps_key_curOp_cfg (h : exec i s = .next t) : t.key = s.key ∧ t.curOp = s.curOp ∧ t.cfg = s.cfg := by
  cases i
  case ret => obtain ⟨-, rfl⟩ := (execRet_next_iff s t).1 h; exact ⟨rfl, rfl, rfl⟩
  case call nnn => obtain ⟨-, rfl⟩ := (execCall_next_iff s t nnn).1 h; exact ⟨rfl, rfl, rfl⟩
  case seByte | sneByte | seReg | sneReg => cases h; simp
  case skp x => obtain ⟨k, -, rfl⟩ := (execSkp_next_iff s t x).1 h; simp
  case sknp x => obtain ⟨k, -, rfl⟩ := (execSknp_next_iff s t x).1 h; simp
  case ldVxK x =>
    obtain ⟨k, -, rfl⟩ | ⟨-, rfl⟩ := (execLdVxK_next_iff s t x).1 h
    · exact ⟨rfl, rfl, rfl⟩
    · exact ⟨rfl, rfl, rfl⟩
  case addI x => obtain ⟨-, rfl⟩ := (execAddI_next_iff s t x).1 h; exact ⟨rfl, rfl, rfl⟩
  case drw x y n => obtain ⟨-, rfl⟩ := (execDrw_next_iff s t x y n).1 h; exact ⟨rfl, rfl, rfl⟩
  case ldB x => obtain ⟨-, rfl⟩ := (execLdB_next_iff s t x).1 h; simp
  case ldMemVx x => obtain ⟨-, rfl⟩ := (execLdMemVx_next_iff s t x).1 h; simp
  case ldVxMem x => obtain ⟨-, rfl⟩ := (execLdVxMem_next_iff s t x).1 h; simp
  all_goals cases h; exact ⟨rfl, rfl, rfl⟩

/-! ## The recorded opcode (R36) -/

/-- Nothing after the advance touches the recorded opcode: not the handler, whatever it answers, and not the timer step. -/
theorem runWord_curOp (op : Word) (s : State) : (runWord op s).state.curOp = s.curOp := by
  cases hd : decodeWord op with
  | error r => simp [runWord_of_unmapped s hd]
  | ok i =>
    cases he : exec i s with
    | next t =>
      obtain ⟨-, hcur, -⟩ := exec_keeps_key_curOp_cfg he
      simp [runWord_of_next s t hd he, hcur]
    | fault f => simp [runWord_of_fault s hd he]
    | refused r => exact absurd he (exec_not_refused s i r)

/-- A cycle whose fetch succeeds forgets the opcode recorded before: the fetch does not read it and the advance overwrites it. -/
theorem cycle_with_curOp (h : s.pc.toNat ≤ 0xFFE) (w : Word) : cycle { s with curOp := w } = cycle s := by
  rw [cycle_of_fetch s h, cycle_of_fetch { s with curOp := w } h]; rfl

/-! ## The values of creation and reset (R39) -/

/-- Memory after creation: `FONT_DATA` at `FONT_BASE`, 0x00 elsewhere (R39, R152). -/
theorem State.peek_powerUp (c : Config) (a : Nat) : (State.powerUp c).peek a =
    if c.fontBase.val ≤ a ∧ a ≤ c.fontBase.val + 79 then c.fontData.toList.getD (a - c.fontBase.val) 0x00 else 0x00 := by
  change resetByte c a = _
  by_cases hin : c.fontBase.val ≤ a ∧ a < c.fontBase.val + 80
  · have hlt : a - c.fontBase.val < 80 := by omega
    rw [resetByte, dif_pos hin, if_pos (by omega)]
    simp [hlt]
  · rw [resetByte, dif_neg hin, if_neg (by omega)]

end Sys2Proof.Machine

namespace Sys2Proof.Proofs

open Sys2Proof.Machine Sys2Proof.Claims

/-- Settles O13: the recorded opcode is what the advance stored, and what stood there before is overwritten, or the fetch
faults without reading it. -/
theorem recordedOpcodeNeverMatters : Obligations.RecordedOpcodeNeverMatters := by
  intro s w
  by_cases hp : s.pc.toNat ≤ 0xFFE
  · have hcycle := cycle_with_curOp hp w
    have hcur : (cycle s).state.curOp = wordAt s := by
      rw [cycle_of_fetch s hp, runWord_curOp]; rfl
    exact ⟨fun _ => hcur, by rw [hcycle], by rw [step, step, hcycle]⟩
  · have hfault : 0xFFE < s.pc.toNat := by omega
    refine ⟨fun h => absurd h hp, ?_, ?_⟩
    · rw [cycle_of_fetch_error s hfault, cycle_of_fetch_error { s with curOp := w } hfault]
    · rw [step_of_fetch_error s hfault, step_of_fetch_error { s with curOp := w } hfault]

/-- Settles O53: by the instruction, the handlers that write no register first, then the writers, whose registers the
hypothesis says `r` is not. -/
theorem onlyListedRegistersAreWritten : Obligations.OnlyListedRegistersAreWritten := by
  intro i s t r h hr
  cases i
  case cls | jp | ldI | jpV0 | ldDTVx | ldSTVx | ldF => cases h; rfl
  case seByte | sneByte | seReg | sneReg => cases h; simp
  case ret => obtain ⟨-, rfl⟩ := (execRet_next_iff s t).1 h; rfl
  case call nnn => obtain ⟨-, rfl⟩ := (execCall_next_iff s t nnn).1 h; rfl
  case skp x => obtain ⟨k, -, rfl⟩ := (execSkp_next_iff s t x).1 h; simp
  case sknp x => obtain ⟨k, -, rfl⟩ := (execSknp_next_iff s t x).1 h; simp
  case addI x => obtain ⟨-, rfl⟩ := (execAddI_next_iff s t x).1 h; rfl
  case ldB x => obtain ⟨-, rfl⟩ := (execLdB_next_iff s t x).1 h; simp
  case ldMemVx x => obtain ⟨-, rfl⟩ := (execLdMemVx_next_iff s t x).1 h; simp
  case ldByte x _ | addByte x _ | ldReg x _ | orReg x _ | andReg x _ | xorReg x _ | ldVxDT x =>
    have hx : r ≠ x := fun e => hr (by simp [MayWriteV, e])
    cases h; simp [hx]
  case rnd x kk =>
    have hx : r ≠ x := fun e => hr (by simp [MayWriteV, e])
    cases h; simp [rndWith, hx]
  case addReg x _ | sub x _ | shr x _ | subn x _ | shl x _ =>
    have hx : r ≠ x := fun e => hr (by simp [MayWriteV, e])
    have hvf : r ≠ regVF := fun e => hr (by simp [MayWriteV, e, regVF])
    cases h; simp [State.readV_writeFlagThenV, hx, hvf]
  case drw x y n =>
    have hvf : r ≠ regVF := fun e => hr (by simp [MayWriteV, e, regVF])
    obtain ⟨-, rfl⟩ := (execDrw_next_iff s t x y n).1 h
    rw [State.readV_drawSprite, if_neg hvf]
  case ldVxK x =>
    obtain ⟨k, hk, rfl⟩ | ⟨-, rfl⟩ := (execLdVxK_next_iff s t x).1 h
    · obtain ⟨hpressed, -⟩ := (State.leastKey_some_iff s k).1 hk
      have hkey : ∃ k, s.readKey k = true := ⟨k, hpressed⟩
      have hx : r ≠ x := fun e => hr (by simpa [MayWriteV, e] using hkey)
      simp [hx]
    · rfl
  case ldVxMem x =>
    have hx : x.val < r.val := by simpa [MayWriteV] using hr
    obtain ⟨-, rfl⟩ := (execLdVxMem_next_iff s t x).1 h
    rw [State.readV_writeVs, State.peekList_length, if_neg (by omega)]

/-- Settles O22: `reset()` gives the power-up state but for the draw counter, which the values of R39 do not name. -/
theorem creationAndResetGiveTheStatedValues : Obligations.CreationAndResetGiveTheStatedValues := by
  have hpower (c : Config) : HasResetValues c (State.powerUp c) :=
    ⟨fun r => by simp [State.readV, State.powerUp], rfl, rfl, fun j => by simp [State.powerUp], rfl, rfl, rfl,
      fun k => by simp [State.readKey, State.powerUp], fun x y => by simp [State.pixel, State.powerUp], rfl, rfl,
      fun a _ => State.peek_powerUp c a⟩
  exact ⟨hpower, fun s => ⟨rfl, hpower s.cfg⟩⟩

end Sys2Proof.Proofs
end

section
/-! PROOFS. Family 41_control_flow.md: the return and the call with the cycle an empty or full stack ends (R86, R88, R131),
the two jumps (R87, R93) and the four register skips (R89-R92). -/

namespace Sys2Proof.Proofs

open Sys2Proof.Machine Sys2Proof.Claims

/-! ## Jump targets -/

/-- A 12-bit address keeps its value as a 16-bit word (R64). -/
@[simp] theorem zext16_toNat (nnn : Addr12) : (zext16 nnn).toNat = nnn.toNat :=
  BitVec.toNat_setWidth_of_le (by decide)

/-- The sum Bnnn jumps to is at most 0x10FE, so 16 bits do not wrap it (R93). -/
theorem toNat_byte_add_zext16 (v : Byte) (nnn : Addr12) : (v.setWidth 16 + zext16 nnn).toNat = v.toNat + nnn.toNat := by
  have hv : (v.setWidth 16).toNat = v.toNat := BitVec.toNat_setWidth_of_le (by decide)
  rw [BitVec.toNat_add_of_lt (by rw [hv, zext16_toNat]; omega), hv, zext16_toNat]

/-! ## The two ways these instructions end -/

/-- A handler that is a skip on `c` changes `pc` only, by 2 when `c` holds (R14, R25). -/
theorem onlyPc_of_skipIf {i : Instr} {s : State} {c : Bool} (h : exec i s = .next (s.skipIf c)) :
    OnlyPc i s (if c then s.pc + 2 else s.pc) := by
  rw [State.skipIf_eq] at h
  exact ⟨_, h, rfl, rfl⟩

/-- A handler's fatal outcome is the cycle's, which leaves the fetched and advanced state (R131, D7). -/
theorem cycle_of_exec_fault {s : State} {i : Instr} {f : Fault} (hp : s.pc.toNat ≤ 0xFFE)
    (hd : decodeWord (wordAt s) = .ok i) (h : exec i (fetched s) = .fault f) :
    cycle s = ⟨.returned (.fatal f), fetched s⟩ :=
  (cycle_of_fetch s hp).trans (runWord_of_fault (fetched s) hd h)

/-! ## The statements -/

/-- Settles O28: what `execRet` answers with `sp` above 0 and with `sp = 0`; the fetch and the advance leave `sp` alone, so
the cycle ends as its handler does. -/
theorem returnPopsTheCallStack : Obligations.ReturnPopsTheCallStack := by
  intro s
  refine ⟨fun j hj => ?_, fun h0 => ?_, fun h0 hp hd => ?_⟩
  · have hslot : s.sp.val - 1 = j.val := by omega
    exact ⟨_, (execRet_next_iff s _).2 ⟨by omega, rfl⟩, rfl, by simp [hslot], hslot⟩
  · exact (execRet_fault_iff s _).2 ⟨h0, rfl⟩
  · exact cycle_of_exec_fault hp hd ((execRet_fault_iff (fetched s) _).2 ⟨h0, rfl⟩)

/-- Settles O29: what `execCall` answers with `sp` below 16 and with `sp = 16`; the fetch and the advance leave `sp` alone,
so the cycle ends as its handler does. -/
theorem callPushesTheAdvancedPcAndJumps : Obligations.CallPushesTheAdvancedPcAndJumps := by
  intro s nnn
  refine ⟨fun hlt => ?_, fun hfull => ?_, fun hfull hp hd => ?_⟩
  · refine ⟨_, (execCall_next_iff s _ nnn).2 ⟨hlt, rfl⟩, rfl, zext16_toNat nnn, rfl, fun j => ?_⟩
    simp [Vector.getElem_set, eq_comm]
  · exact (execCall_fault_iff s _ nnn).2 ⟨hfull, rfl⟩
  · exact cycle_of_exec_fault hp hd ((execCall_fault_iff (fetched s) _ nnn).2 ⟨hfull, rfl⟩)

/-- Settles O31: both handlers write `pc` only, and neither target wraps. -/
theorem jumpsGoToTheirTargets : Obligations.JumpsGoToTheirTargets := fun s nnn =>
  ⟨⟨_, rfl, rfl, zext16_toNat nnn⟩, ⟨_, rfl, rfl, toNat_byte_add_zext16 (s.readV 0) nnn⟩⟩

/-- Settles O32: each handler is a skip on its own condition; the two SNE conditions are the negated ones. -/
theorem skipsAddTwoWhenTheirConditionHolds : Obligations.SkipsAddTwoWhenTheirConditionHolds := by
  intro s x y kk
  have hse (i : Instr) (a b : Byte) (h : exec i s = .next (s.skipIf (a == b))) :
      OnlyPc i s (if a = b then s.pc + 2 else s.pc) := by
    simpa using onlyPc_of_skipIf h
  have hsne (i : Instr) (a b : Byte) (h : exec i s = .next (s.skipIf (a != b))) :
      OnlyPc i s (if a = b then s.pc else s.pc + 2) := by
    simpa using onlyPc_of_skipIf h
  exact ⟨hse _ _ _ rfl, hsne _ _ _ rfl, hse _ _ _ rfl, hsne _ _ _ rfl⟩

end Sys2Proof.Proofs
end

section
/-! PROOFS. Family 42_register_alu.md: the loads and the immediate add (R94-R96), the bitwise operations (R97-R99), and the
add, the subtractions and the shifts with their flag (R100-R104). Every handler here ends in one of two writes, of `V[x]` or
of VF and then `V[x]`; one lemma for each ending says what the obligations ask of it. -/

namespace Sys2Proof.Proofs

open Sys2Proof.Machine Sys2Proof.Claims

/-! ## The flags as numbers -/

theorem flagOf_decide_toNat (p : Prop) [Decidable p] : (flagOf (decide p)).toNat = if p then 1 else 0 := by
  by_cases h : p <;> simp [flagOf, h]

theorem carryFlag_toNat (a b : Byte) : (carryFlag a b).toNat = if 255 < a.toNat + b.toNat then 1 else 0 :=
  flagOf_decide_toNat _

theorem greaterFlag_toNat (a b : Byte) : (greaterFlag a b).toNat = if b.toNat < a.toNat then 1 else 0 :=
  flagOf_decide_toNat _

theorem lowBitFlag_toNat (a : Byte) : (lowBitFlag a).toNat = a.toNat % 2 := by
  simp [lowBitFlag, Nat.and_one_is_mod]

theorem highBitFlag_toNat (a : Byte) : (highBitFlag a).toNat = a.toNat / 128 := by
  have hdiv : a.toNat / 128 < 2 := by omega
  simp [highBitFlag, Nat.and_one_is_mod, Nat.shiftRight_eq_div_pow, Nat.mod_eq_of_lt hdiv]

/-! ## The results as numbers -/

theorem byte_sub_toNat (a b : Byte) : (a - b).toNat = (a.toNat + 256 - b.toNat) % 256 := by
  rw [BitVec.toNat_sub]; omega

theorem byte_shiftRight_one_toNat (a : Byte) : (a >>> 1).toNat = a.toNat / 2 := by
  rw [BitVec.toNat_ushiftRight, Nat.shiftRight_eq_div_pow]

theorem byte_shiftLeft_one_toNat (a : Byte) : (a <<< 1).toNat = a.toNat * 2 % 256 := by
  rw [BitVec.toNat_shiftLeft, Nat.shiftLeft_eq]

/-! ## The two ways these instructions end -/

section Endings

variable {i : Instr} {s : State} {x : Nibble}

/-- A handler that writes `V[x]` last and only leaves every other register, VF included, as it was. -/
theorem onlyRegisters_of_writeV {v : Byte} (h : exec i s = .next (s.writeV x v)) :
    OnlyRegisters i s fun r => if r = x then v else s.readV r :=
  ⟨_, h, rfl, fun r => State.readV_writeV s x r v⟩

/-- The same ending, with the written value given bit by bit. -/
theorem completes_bitwise_of_writeV {v : Byte} {bit : Nat → Bool} (h : exec i s = .next (s.writeV x v))
    (hv : ∀ k, v.getLsbD k = bit k) :
    Completes i s fun t => t = { s with V := t.V } ∧ (∀ r, r ≠ x → t.readV r = s.readV r) ∧
      ∀ k < 8, (t.readV x).getLsbD k = bit k :=
  ⟨_, h, rfl, fun r hr => by simp [hr], fun k _ => by simp [hv k]⟩

/-- A handler that writes VF and then `V[x]`: the result stands in `V[x]` also when `x = 0xF`, the flag in VF when not
(R106). -/
theorem flagAndResult_of_writeFlagThenV {result flag : Byte} {m n : Nat}
    (h : exec i s = .next (s.writeFlagThenV flag x result)) (hresult : result.toNat = m) (hflag : flag.toNat = n) :
    FlagAndResult i s x m n := by
  refine ⟨_, h, State.writeFlagThenV_eq s flag x result, ?_, fun hx => ?_, fun r hrx hrvf => ?_⟩
  · rw [State.readV_writeFlagThenV, if_pos rfl, hresult]
  · rw [State.readV_writeFlagThenV, if_neg hx.symm, regVF, if_pos rfl, hflag]
  · rw [State.readV_writeFlagThenV, if_neg hrx, regVF, if_neg hrvf]

end Endings

/-! ## The statements -/

/-- Settles O33: each handler writes `V[x]` only; the byte addition is the addition modulo 256. -/
theorem loadsAndAddImmediateWriteOneRegister : Obligations.LoadsAndAddImmediateWriteOneRegister := by
  intro s x y kk
  have hsum : s.readV x + kk = BitVec.ofNat 8 (((s.readV x).toNat + kk.toNat) % 256) :=
    BitVec.eq_of_toNat_eq (by simp)
  exact ⟨onlyRegisters_of_writeV rfl, hsum ▸ onlyRegisters_of_writeV rfl, onlyRegisters_of_writeV rfl⟩

/-- Settles O34: each handler writes `V[x]` only, and the bits of a bitwise operation are those of its operands. -/
theorem logicWritesTheBitwiseResultOnly : Obligations.LogicWritesTheBitwiseResultOnly := fun _ _ _ =>
  ⟨completes_bitwise_of_writeV rfl fun _ => BitVec.getLsbD_or, completes_bitwise_of_writeV rfl fun _ => BitVec.getLsbD_and,
    completes_bitwise_of_writeV rfl fun _ => BitVec.getLsbD_xor⟩

/-- Settles O35: the byte addition is the sum modulo 256, and the flag its carry. -/
theorem addRegisterGivesSumAndCarry : Obligations.AddRegisterGivesSumAndCarry := fun _ _ _ =>
  flagAndResult_of_writeFlagThenV rfl (BitVec.toNat_add _ _) (carryFlag_toNat _ _)

/-- Settles O36: 8xy7 is 8xy5 with the operands exchanged, in the result and in the flag. -/
theorem subtractionsGiveDifferenceAndStrictFlag : Obligations.SubtractionsGiveDifferenceAndStrictFlag := fun _ _ _ =>
  ⟨flagAndResult_of_writeFlagThenV rfl (byte_sub_toNat _ _) (greaterFlag_toNat _ _),
    flagAndResult_of_writeFlagThenV rfl (byte_sub_toNat _ _) (greaterFlag_toNat _ _)⟩

/-- Settles O37: the shifts halve and double, and the bit that falls off is the flag. -/
theorem shiftsGiveResultAndShiftedOutBit : Obligations.ShiftsGiveResultAndShiftedOutBit := fun _ _ _ =>
  ⟨flagAndResult_of_writeFlagThenV rfl (byte_shiftRight_one_toNat _) (lowBitFlag_toNat _),
    flagAndResult_of_writeFlagThenV rfl (byte_shiftLeft_one_toNat _) (highBitFlag_toNat _)⟩

end Sys2Proof.Proofs
end

section
/-! PROOFS. Family 43_index_memory.md: the decimal digits Fx33 stores (R111) and the registers Fx65 loads (R113). What a
stored span and a loaded span leave is said once, address by address and register by register. -/

namespace Sys2Proof.Machine

variable (s : State)

/-! ## Spans, by offset -/

theorem State.peek_pokeList_offset (a k : Nat) (bytes : List Byte) (h : k < bytes.length) :
    (s.pokeList a bytes).peek (a + k) = bytes[k] := by
  rw [State.peek_pokeList, if_pos (by omega), Nat.add_sub_cancel_left, List.getD_eq_getElem _ _ h]

theorem State.peek_pokeList_outside {a b : Nat} {bytes : List Byte} (h : b < a ∨ a + bytes.length ≤ b) :
    (s.pokeList a bytes).peek b = s.peek b := by
  rw [State.peek_pokeList, if_neg (by omega)]

/-- Loading `n` bytes into `V0`, `V1`, ...: register `r` takes the byte at offset `r`, the registers from `n` on stay. -/
theorem State.readV_writeVs_peekList (a n : Nat) (r : Nibble) :
    (s.writeVs 0 (s.peekList a n)).readV r = if r.val < n then s.peek (a + r.val) else s.readV r := by
  rw [State.readV_writeVs, State.peekList_length]
  by_cases hr : r.val < n
  · rw [if_pos (by omega), if_pos hr, List.getD_eq_getElem?_getD, Nat.sub_zero, State.peekList_getElem s a n r.val hr]
    rfl
  · rw [if_neg (by omega), if_neg hr]

/-! ## The decimal digits (R111) -/

theorem bcdDigits_length (v : Byte) : (bcdDigits v).length = 3 := rfl

/-- Each digit is below 10, so the byte that stores it has its value: the byte at offset `k` is the digit of `10 ^ (2 - k)`. -/
theorem bcdDigits_getElem_toNat (v : Byte) (k : Nat) (h : k < (bcdDigits v).length) :
    (bcdDigits v)[k].toNat = v.toNat / 10 ^ (2 - k) % 10 := by
  have hdigit (d : Nat) (hd : d < 10) : (BitVec.ofNat 8 d).toNat = d := Nat.mod_eq_of_lt (by omega)
  match k, h with
  | 0, _ => exact (hdigit (v.toNat / 100) (by omega)).trans (Nat.mod_eq_of_lt (by omega)).symm
  | 1, _ => exact hdigit (v.toNat / 10 % 10) (by omega)
  | 2, _ => exact (hdigit (v.toNat % 10) (by omega)).trans (by rw [Nat.sub_self, Nat.pow_zero, Nat.div_one])

end Sys2Proof.Machine

namespace Sys2Proof.Proofs

open Sys2Proof.Machine Sys2Proof.Claims

/-- Settles O42: the byte at offset `k` is the digit of `10 ^ (2 - k)`, and the hundreds of a byte are a digit already. -/
theorem decimalDigitsAreStoredAtIndex : Obligations.DecimalDigitsAreStoredAtIndex := by
  intro s x
  refine ⟨fun hin => ⟨_, (execLdB_next_iff s _ x).2 ⟨hin, rfl⟩, State.pokeList_eq .., ?_⟩,
    fun hout => (execLdB_fault_iff s _ x).2 ⟨hout, rfl⟩⟩
  have hdigit (k : Nat) (hk : k < 3) :
      ((s.pokeList s.I.toNat (bcdDigits (s.readV x))).peek (s.I.toNat + k)).toNat =
        (s.readV x).toNat / 10 ^ (2 - k) % 10 := by
    have hlt : k < (bcdDigits (s.readV x)).length := hk
    rw [State.peek_pokeList_offset s _ k _ hlt, bcdDigits_getElem_toNat]
  refine ⟨(hdigit 0 (by decide)).trans (Nat.mod_eq_of_lt (by omega)), hdigit 1 (by decide), ?ones, fun a ha => ?outside⟩
  case ones => simpa using hdigit 2 (by decide)
  case outside => exact s.peek_pokeList_outside (by rw [bcdDigits_length]; omega)

/-- Settles O44: `x + 1` bytes are loaded into the registers from `V0` on, and register numbers below `x + 1` are those up
to `x`. -/
theorem registersAreLoadedFromIndex : Obligations.RegistersAreLoadedFromIndex := by
  intro s x
  refine ⟨fun hin => ⟨_, (execLdVxMem_next_iff s _ x).2 ⟨hin, rfl⟩, State.writeVs_eq .., fun r => ?_⟩,
    fun hout => (execLdVxMem_fault_iff s _ x).2 ⟨hout, rfl⟩⟩
  rw [State.readV_writeVs_peekList]
  simp only [Nat.lt_succ_iff]

end Sys2Proof.Proofs
end

section
/-! PROOFS. Family 44_display.md: clear (R114) and the sprite draw with its collision flag (R115-R118). The draw is read
pixel by pixel, through the set of pixels under the sprite's 1 bits. -/

namespace Sys2Proof.Machine

/-! ## One flag -/

theorem flagOf_eq_zero_or_one (c : Bool) : flagOf c = 0 ∨ flagOf c = 1 := by cases c <;> decide

theorem flagOf_eq_one_iff (c : Bool) : flagOf c = 1 ↔ c = true := by cases c <;> decide

variable (s : State)

/-! ## What a draw reads and leaves -/

theorem State.peekList_getD (a n k : Nat) (d : Byte) (h : k < n) : (s.peekList a n).getD k d = s.peek (a + k) := by
  rw [List.getD_eq_getElem?_getD, State.peekList_getElem s a n k h, Option.getD_some]

/-- A draw of at most 32 rows inverts exactly the pixels its sprite names (R116). -/
theorem State.pixel_drawSprite (x0 y0 : Nat) (bytes : List Byte) (h : bytes.length ≤ 32) (px : Fin 64) (py : Fin 32) :
    (s.drawSprite x0 y0 bytes).pixel px py =
      if (px, py) ∈ spritePixels x0 y0 bytes then !s.pixel px py else s.pixel px py :=
  fbGet_togglePixels s.fb false _ (spritePixels_nodup x0 y0 bytes h) (px, py)

theorem State.readV_drawSprite_regVF (x0 y0 : Nat) (bytes : List Byte) :
    (s.drawSprite x0 y0 bytes).readV regVF = flagOf (togglePixels s.fb false (spritePixels x0 y0 bytes)).2 :=
  (State.readV_drawSprite s x0 y0 bytes regVF).trans (if_pos rfl)

/-- After a draw of at most 32 rows VF tells whether a pixel the sprite names was on (R117). -/
theorem State.readV_drawSprite_flag_eq_one_iff (x0 y0 : Nat) (bytes : List Byte) (h : bytes.length ≤ 32) :
    (s.drawSprite x0 y0 bytes).readV regVF = 1 ↔
      ∃ px py, (px, py) ∈ spritePixels x0 y0 bytes ∧ s.pixel px py = true := by
  rw [State.readV_drawSprite_regVF, flagOf_eq_one_iff, togglePixels_hit s.fb false _ (spritePixels_nodup x0 y0 bytes h)]
  simp [State.pixel_eq_fbGet]

end Sys2Proof.Machine

namespace Sys2Proof.Proofs

open Sys2Proof.Machine Sys2Proof.Claims

/-- The pixels the handler toggles are those the sprite covers: the row read at offset `row` is the byte at `I + row`
(R115, R116, R118). -/
theorem mem_spritePixels_iff_spriteCovers (s : State) (x y n : Nibble) (px : Fin 64) (py : Fin 32) :
    (px, py) ∈ spritePixels ((s.readV x).toNat % 64) ((s.readV y).toNat % 32) (s.peekList s.I.toNat n.val) ↔
      SpriteCovers s x y n px py := by
  rw [mem_spritePixels, State.peekList_length]
  constructor
  · rintro ⟨row, hrow, col, hcol, hbit, hx, hy⟩
    rw [State.peekList_getD s _ _ _ _ hrow] at hbit
    exact ⟨row, col, hrow, hcol, hbit, hx, hy⟩
  · rintro ⟨row, col, hrow, hcol, hbit, hx, hy⟩
    rw [← State.peekList_getD s _ _ _ 0 hrow] at hbit
    exact ⟨row, hrow, col, hcol, hbit, hx, hy⟩

/-! ## The statements -/

/-- Settles O46: the handler replaces the framebuffer by the one whose every pixel is off. -/
theorem clearTurnsEveryPixelOff : Obligations.ClearTurnsEveryPixelOff := fun _ =>
  ⟨_, rfl, rfl, fun x y => fbGet_clearFb (x, y)⟩

/-- Settles O47: a sprite has at most 15 rows, so it names no pixel twice, and the pixels it names are those it covers. -/
theorem drawInvertsExactlyTheSpritePixels : Obligations.DrawInvertsExactlyTheSpritePixels := by
  intro s x y n
  refine ⟨fun hin => ⟨_, (execDrw_next_iff s _ x y n).2 ⟨hin, rfl⟩, State.drawSprite_eq .., ?_⟩, fun hout => ?fault⟩
  case fault =>
    obtain ⟨hrows, hlast⟩ := not_or.1 hout
    exact (execDrw_fault_iff s _ x y n).2 ⟨⟨Nat.pos_of_ne_zero hrows, Nat.lt_of_not_le hlast⟩, rfl⟩
  have hrows : (s.peekList s.I.toNat n.val).length ≤ 32 := by rw [State.peekList_length]; omega
  refine ⟨fun px py hcov => ?covered, fun px py hcov => ?uncovered, ?bit, ?collision, fun r hr => ?others⟩
  case covered => rw [State.pixel_drawSprite s _ _ _ hrows, if_pos ((mem_spritePixels_iff_spriteCovers ..).2 hcov)]
  case uncovered =>
    rw [State.pixel_drawSprite s _ _ _ hrows, if_neg (mt (mem_spritePixels_iff_spriteCovers ..).1 hcov)]
  case bit => exact State.readV_drawSprite_regVF s _ _ _ ▸ flagOf_eq_zero_or_one _
  case collision =>
    refine (State.readV_drawSprite_flag_eq_one_iff s _ _ _ hrows).trans ?_
    simp only [mem_spritePixels_iff_spriteCovers]
  case others => exact (State.readV_drawSprite s _ _ _ r).trans (if_neg hr)

end Sys2Proof.Proofs
end

section
/-! PROOFS. Family 60_exceptions.md: `tick_timers()`, once and many times in a row (R140, R141). -/

namespace Sys2Proof.Machine

variable (s : State) (n : Nat)

/-- A run that begins with `tick_timers()` ends where the run of the remaining calls from the ticked state ends. -/
theorem runCalls_replicate_tickTimers_succ_state :
    (runCalls s (List.replicate (n + 1) .tickTimers)).2 = (runCalls s.timerTick (List.replicate n .tickTimers)).2 := rfl

/-- `n` calls of `tick_timers()` count a timer down by `n`, as one counts it down by one (R140). -/
theorem runCalls_replicate_tickTimers_toNat :
    (runCalls s (List.replicate n .tickTimers)).2.DT.toNat = s.DT.toNat - n ∧
      (runCalls s (List.replicate n .tickTimers)).2.ST.toNat = s.ST.toNat - n := by
  induction n generalizing s with
  | zero => exact ⟨rfl, rfl⟩
  | succ n ih =>
    simpa only [runCalls_replicate_tickTimers_succ_state, State.timerTick_DT, State.timerTick_ST, countDown_toNat,
      Nat.sub_sub, Nat.add_comm 1 n] using ih s.timerTick

end Sys2Proof.Machine

namespace Sys2Proof.Proofs

open Sys2Proof.Machine

/-- Settles O25: the entry point is the timer tick itself, which does not ask for the coupling; the run is the tick's count
by induction on the number of calls. -/
theorem timerTicksCountDownToZero : Obligations.TimerTicksCountDownToZero := fun s =>
  ⟨⟨s.timerTick, rfl, rfl, countDown_toNat s.DT, countDown_toNat s.ST⟩, runCalls_replicate_tickTimers_toNat s⟩

end Sys2Proof.Proofs
end

section
/-! PROOFS. Encoding and decoding (30_encoding.md R63-R84). A word agrees with a canonical word on the examined bits exactly
when it has its family and its operand fields, and the decoder reads nothing else of a word. -/

namespace Sys2Proof

/-! ## A word is a format's word exactly when its fields say so (R63, R65) -/

theorem eq_wordNNN_iff (w : Word) (f : BitVec 4) (nnn : Addr12) :
    w = wordNNN f nnn ↔ (opFamily w).val = f.toNat ∧ opNNN w = nnn := by
  constructor
  · rintro rfl; exact fields_wordNNN f nnn
  · rintro ⟨hf, rfl⟩
    apply BitVec.eq_of_toNat_eq
    rw [wordNNN_toNat, opNNN_toNat, ← hf, opFamily_val]; omega

theorem eq_wordXKK_iff (w : Word) (f : BitVec 4) (x : Nibble) (kk : Byte) :
    w = wordXKK f x kk ↔ (opFamily w).val = f.toNat ∧ opX w = x ∧ opKK w = kk := by
  constructor
  · rintro rfl; obtain ⟨hf, hx, hk, -⟩ := fields_wordXKK f x kk; exact ⟨hf, hx, hk⟩
  · rintro ⟨hf, rfl, rfl⟩
    apply BitVec.eq_of_toNat_eq
    rw [wordXKK_toNat, opX_val, opKK_toNat, ← hf, opFamily_val]; omega

theorem eq_wordXYN_iff (w : Word) (f : BitVec 4) (x y n : Nibble) :
    w = wordXYN f x y n ↔ (opFamily w).val = f.toNat ∧ opX w = x ∧ opY w = y ∧ opN w = n := by
  constructor
  · rintro rfl; exact fields_wordXYN f x y n
  · rintro ⟨hf, rfl, rfl, rfl⟩
    apply BitVec.eq_of_toNat_eq
    rw [wordXYN_toNat, opX_val, opY_val, opN_val, ← hf, opFamily_val]; omega

/-! ## Agreement under the masks of `examinedMask` -/

theorem and_FFFF_eq_iff (w v : Word) : w &&& 0xFFFF = v &&& 0xFFFF ↔ w = v := by
  rw [show (0xFFFF : Word) = BitVec.allOnes 16 from rfl, BitVec.and_allOnes, BitVec.and_allOnes]

/-- Families 5 and 9 do not examine the low nibble (R71). -/
theorem and_FFF0_eq_wordXYN_iff (w : Word) (f : BitVec 4) (x y n : Nibble) :
    w &&& 0xFFF0 = wordXYN f x y n &&& 0xFFF0 ↔ (opFamily w).val = f.toNat ∧ opX w = x ∧ opY w = y := by
  rw [← BitVec.toNat_inj, and_FFF0, and_FFF0]
  simp only [← opFamily_val, ← opX_val, ← opY_val, fields_wordXYN, Fin.ext_iff]
  omega

/-- Family E does not examine `op[7:4]` (R69). -/
theorem and_FF0F_eq_wordXKK_iff (w : Word) (f : BitVec 4) (x : Nibble) (kk : Byte) :
    w &&& 0xFF0F = wordXKK f x kk &&& 0xFF0F ↔
      (opFamily w).val = f.toNat ∧ opX w = x ∧ (opN w).val = kk.toNat % 16 := by
  rw [← BitVec.toNat_inj, and_FF0F, and_FF0F]
  simp only [← opFamily_val, ← opX_val, ← opN_val, fields_wordXKK, Fin.ext_iff]
  omega

/-- Family 0 examines the low nibble only (R67). -/
theorem and_F00F_eq_family0_iff (w v : Word) (hv : v.toNat < 4096) :
    w &&& 0xF00F = v &&& 0xF00F ↔ (opFamily w).val = 0 ∧ (opN w).val = v.toNat % 16 := by
  have := w.isLt
  rw [← BitVec.toNat_inj, and_F00F, and_F00F, opFamily_val, opN_val]
  omega

/-! ## The decoder and the examined bits -/

/-- A word and the canonical word of an instruction agree on the bits the dispatch examines or an operand holds. -/
def AgreesOnExaminedBits (w : Word) (i : Instr) : Prop := w &&& examinedMask i = encode i &&& examinedMask i

/-- Agreement fixes the family, the selecting field and the operands, and on those the decoder selects the instruction. -/
theorem decodeWord_of_agreesOnExaminedBits {w : Word} {i : Instr} (h : AgreesOnExaminedBits w i) : decodeWord w = .ok i := by
  cases i
  case cls | ret =>
    obtain ⟨hf, hn⟩ := (and_F00F_eq_family0_iff w _ (by decide)).1 h
    simp [decodeWord, hf, decodeFamily0, hn, encode]
  case jp | call | ldI | jpV0 =>
    obtain ⟨hf, rfl⟩ := (eq_wordNNN_iff w _ _).1 ((and_FFFF_eq_iff w _).1 h)
    simp [decodeWord, hf]
  case seByte | sneByte | ldByte | addByte | rnd =>
    obtain ⟨hf, rfl, rfl⟩ := (eq_wordXKK_iff w _ _ _).1 ((and_FFFF_eq_iff w _).1 h)
    simp [decodeWord, hf]
  case seReg | sneReg =>
    obtain ⟨hf, rfl, rfl⟩ := (and_FFF0_eq_wordXYN_iff w _ _ _ _).1 h
    simp [decodeWord, hf]
  case skp | sknp =>
    obtain ⟨hf, rfl, hn⟩ := (and_FF0F_eq_wordXKK_iff w _ _ _).1 h
    simp [decodeWord, hf, decodeFamilyE, hn]
  case drw =>
    obtain ⟨hf, rfl, rfl, rfl⟩ := (eq_wordXYN_iff w _ _ _ _).1 ((and_FFFF_eq_iff w _).1 h)
    simp [decodeWord, hf]
  case ldReg | orReg | andReg | xorReg | addReg | sub | shr | subn | shl =>
    obtain ⟨hf, rfl, rfl, hn⟩ := (eq_wordXYN_iff w _ _ _ _).1 ((and_FFFF_eq_iff w _).1 h)
    simp [decodeWord, hf, decodeFamily8, hn]
  case ldVxDT | ldVxK | ldDTVx | ldSTVx | addI | ldF | ldB | ldMemVx | ldVxMem =>
    obtain ⟨hf, rfl, hk⟩ := (eq_wordXKK_iff w _ _ _).1 ((and_FFFF_eq_iff w _).1 h)
    simp [decodeWord, hf, decodeFamilyF, hk]

theorem agreesOnExaminedBits_of_decodeFamily0 {w : Word} {i : Instr} (hf : (opFamily w).val = 0)
    (h : decodeFamily0 w = .ok i) : AgreesOnExaminedBits w i := by
  rw [decodeFamily0] at h
  split at h <;> cases h <;> exact (and_F00F_eq_family0_iff w _ (by decide)).2 ⟨hf, by assumption⟩

theorem agreesOnExaminedBits_of_decodeFamily8 {w : Word} {i : Instr} (hf : (opFamily w).val = 8)
    (h : decodeFamily8 w = .ok i) : AgreesOnExaminedBits w i := by
  rw [decodeFamily8] at h
  split at h <;> cases h <;>
    exact (and_FFFF_eq_iff w _).2 ((eq_wordXYN_iff w _ _ _ _).2 ⟨hf, rfl, rfl, Fin.ext (by assumption)⟩)

theorem agreesOnExaminedBits_of_decodeFamilyE {w : Word} {i : Instr} (hf : (opFamily w).val = 14)
    (h : decodeFamilyE w = .ok i) : AgreesOnExaminedBits w i := by
  rw [decodeFamilyE] at h
  split at h <;> cases h <;> exact (and_FF0F_eq_wordXKK_iff w _ _ _).2 ⟨hf, rfl, by assumption⟩

theorem agreesOnExaminedBits_of_decodeFamilyF {w : Word} {i : Instr} (hf : (opFamily w).val = 15)
    (h : decodeFamilyF w = .ok i) : AgreesOnExaminedBits w i := by
  rw [decodeFamilyF] at h
  split at h <;> cases h <;>
    exact (and_FFFF_eq_iff w _).2 ((eq_wordXKK_iff w _ _ _).2 ⟨hf, rfl, BitVec.eq_of_toNat_eq (by assumption)⟩)

/-- The families with a second table by their own lemmas; every other family is one instruction. -/
theorem agreesOnExaminedBits_of_decodeWord {w : Word} {i : Instr} (h : decodeWord w = .ok i) : AgreesOnExaminedBits w i := by
  have hlt := (opFamily w).isLt
  rw [decodeWord] at h
  match hf : (opFamily w).val, hlt, h with
  | 0x0, _, h => exact agreesOnExaminedBits_of_decodeFamily0 hf h
  | 0x8, _, h => exact agreesOnExaminedBits_of_decodeFamily8 hf h
  | 0xE, _, h => exact agreesOnExaminedBits_of_decodeFamilyE hf h
  | 0xF, _, h => exact agreesOnExaminedBits_of_decodeFamilyF hf h
  | 0x1, _, rfl | 0x2, _, rfl | 0xA, _, rfl | 0xB, _, rfl =>
    exact (and_FFFF_eq_iff w _).2 ((eq_wordNNN_iff w _ _).2 ⟨hf, rfl⟩)
  | 0x3, _, rfl | 0x4, _, rfl | 0x6, _, rfl | 0x7, _, rfl | 0xC, _, rfl =>
    exact (and_FFFF_eq_iff w _).2 ((eq_wordXKK_iff w _ _ _).2 ⟨hf, rfl, rfl⟩)
  | 0x5, _, rfl | 0x9, _, rfl => exact (and_FFF0_eq_wordXYN_iff w _ _ _ _).2 ⟨hf, rfl, rfl⟩
  | 0xD, _, rfl => exact (and_FFFF_eq_iff w _).2 ((eq_wordXYN_iff w _ _ _ _).2 ⟨hf, rfl, rfl, rfl⟩)
  | _ + 16, hlt, _ => omega

/-- Decoding the canonical word of an instruction gives it back. -/
@[simp] theorem decodeWord_encode (i : Instr) : decodeWord (encode i) = .ok i := decodeWord_of_agreesOnExaminedBits rfl

/-! ## The unmapped words (R78) -/

theorem ushiftRight_12_eq_iff (w c : Word) : w >>> 12 = c ↔ (opFamily w).val = c.toNat := by
  rw [← BitVec.toNat_inj, BitVec.toNat_ushiftRight, Nat.shiftRight_eq_div_pow, opFamily_val]

theorem and_F_eq_iff (w c : Word) : w &&& 0xF = c ↔ (opN w).val = c.toNat := by
  rw [← BitVec.toNat_inj, and_000F, opN_val]

theorem and_FF_eq_iff (w c : Word) : w &&& 0xFF = c ↔ (opKK w).toNat = c.toNat := by
  rw [← BitVec.toNat_inj, and_00FF, opKK_toNat]; omega

theorem decodeFamily0_error_iff (w : Word) :
    (∃ r, decodeFamily0 w = .error r) ↔ ¬ ((opN w).val = 0x0 ∨ (opN w).val = 0xE) := by
  rw [decodeFamily0]; split <;> simp_all

theorem decodeFamily8_error_iff (w : Word) : (∃ r, decodeFamily8 w = .error r) ↔
    ((opN w).val = 0x8 ∨ (opN w).val = 0x9 ∨ (opN w).val = 0xA ∨ (opN w).val = 0xB ∨ (opN w).val = 0xC ∨
      (opN w).val = 0xD ∨ (opN w).val = 0xF) := by
  have := (opN w).isLt
  rw [decodeFamily8]; split <;> simp_all; omega

theorem decodeFamilyE_error_iff (w : Word) :
    (∃ r, decodeFamilyE w = .error r) ↔ ¬ ((opN w).val = 0x1 ∨ (opN w).val = 0xE) := by
  rw [decodeFamilyE]; split <;> simp_all

theorem decodeFamilyF_error_iff (w : Word) : (∃ r, decodeFamilyF w = .error r) ↔
    ¬ ((opKK w).toNat = 0x07 ∨ (opKK w).toNat = 0x0A ∨ (opKK w).toNat = 0x15 ∨ (opKK w).toNat = 0x18 ∨
      (opKK w).toNat = 0x1E ∨ (opKK w).toNat = 0x29 ∨ (opKK w).toNat = 0x33 ∨ (opKK w).toNat = 0x55 ∨
      (opKK w).toNat = 0x65) := by
  rw [decodeFamilyF]; split <;> simp_all

/-- `UnmappedWord` in the fields of a word, family by family. -/
theorem unmappedWord_iff (w : Word) : Claims.UnmappedWord w ↔
    ((opFamily w).val = 0x0 ∧ ∃ r, decodeFamily0 w = .error r) ∨
    ((opFamily w).val = 0x8 ∧ ∃ r, decodeFamily8 w = .error r) ∨
    ((opFamily w).val = 0xE ∧ ∃ r, decodeFamilyE w = .error r) ∨
    ((opFamily w).val = 0xF ∧ ∃ r, decodeFamilyF w = .error r) := by
  rw [decodeFamily0_error_iff, decodeFamily8_error_iff, decodeFamilyE_error_iff, decodeFamilyF_error_iff]
  simp only [Claims.UnmappedWord, ushiftRight_12_eq_iff, and_F_eq_iff, and_FF_eq_iff]
  rfl

/-- Only the four families with a second table reject words. -/
theorem decodeWord_error_iff (w : Word) : (∃ r, decodeWord w = .error r) ↔ Claims.UnmappedWord w := by
  have hlt := (opFamily w).isLt
  rw [unmappedWord_iff, decodeWord]
  generalize (opFamily w).val = f at hlt
  match f, hlt with
  | 0x0, _ | 0x8, _ | 0xE, _ | 0xF, _ => simp
  | 0x1, _ | 0x2, _ | 0x3, _ | 0x4, _ | 0x5, _ | 0x6, _ | 0x7, _ | 0x9, _ | 0xA, _ | 0xB, _ | 0xC, _ | 0xD, _ => simp
  | _ + 16, hlt => omega

/-! ## The canonical words (R81, R84) -/

theorem canonicalXY_iff (w : Word) : canonicalXY w = true ↔ (opN w).val = 0 := by
  simp only [canonicalXY, beq_iff_eq, and_F_eq_iff]; rfl

theorem canonicalFamily8_iff (w : Word) : canonicalFamily8 w = true ↔
    (opN w).val = 0x0 ∨ (opN w).val = 0x1 ∨ (opN w).val = 0x2 ∨ (opN w).val = 0x3 ∨ (opN w).val = 0x4 ∨ (opN w).val = 0x5 ∨
      (opN w).val = 0x6 ∨ (opN w).val = 0x7 ∨ (opN w).val = 0xE := by
  simp only [canonicalFamily8, List.contains_iff_mem, List.mem_cons, List.not_mem_nil, or_false, and_F_eq_iff]; rfl

theorem canonicalFamilyE_iff (w : Word) : canonicalFamilyE w = true ↔ (opKK w).toNat = 0x9E ∨ (opKK w).toNat = 0xA1 := by
  simp only [canonicalFamilyE, List.contains_iff_mem, List.mem_cons, List.not_mem_nil, or_false, and_FF_eq_iff]; rfl

theorem canonicalFamilyF_iff (w : Word) : canonicalFamilyF w = true ↔
    (opKK w).toNat = 0x07 ∨ (opKK w).toNat = 0x0A ∨ (opKK w).toNat = 0x15 ∨ (opKK w).toNat = 0x18 ∨ (opKK w).toNat = 0x1E ∨
      (opKK w).toNat = 0x29 ∨ (opKK w).toNat = 0x33 ∨ (opKK w).toNat = 0x55 ∨ (opKK w).toNat = 0x65 := by
  simp only [canonicalFamilyF, List.contains_iff_mem, List.mem_cons, List.not_mem_nil, or_false, and_FF_eq_iff]; rfl

/-- The check's dispatch key is the family. -/
theorem ushiftRight_12_toNat (w : Word) : (w >>> 12).toNat = (opFamily w).val := ((ushiftRight_12_eq_iff w _).1 rfl).symm

/-- Every encoding passes the check: its family and its selecting field are those of its format's word. -/
theorem canonicalWord_encode (i : Instr) : canonicalWord (encode i) = true := by
  rw [canonicalWord, ushiftRight_12_toNat]
  cases i
  case cls | ret => decide
  case jp | call | ldI | jpV0 => simp [encode, fields_wordNNN]
  case seByte | sneByte | ldByte | addByte | rnd => simp [encode, fields_wordXKK]
  case drw => simp [encode, fields_wordXYN]
  case seReg | sneReg => simp [encode, fields_wordXYN, canonicalXY_iff]
  case ldReg | orReg | andReg | xorReg | addReg | sub | shr | subn | shl =>
    simp [encode, fields_wordXYN, canonicalFamily8_iff]
  case skp | sknp => simp [encode, fields_wordXKK, canonicalFamilyE_iff]
  case ldVxDT | ldVxK | ldDTVx | ldSTVx | addI | ldF | ldB | ldMemVx | ldVxMem =>
    simp [encode, fields_wordXKK, canonicalFamilyF_iff]

/-- A word that passes the check is mapped. -/
theorem not_unmappedWord_of_canonicalWord {w : Word} (h : canonicalWord w = true) : ¬ Claims.UnmappedWord w := by
  rw [canonicalWord, ushiftRight_12_toNat] at h
  rw [unmappedWord_iff, decodeFamily0_error_iff, decodeFamily8_error_iff, decodeFamilyE_error_iff, decodeFamilyF_error_iff]
  rintro (⟨hf, hn⟩ | ⟨hf, hn⟩ | ⟨hf, hn⟩ | ⟨hf, hk⟩)
  all_goals simp only [hf] at h
  · obtain rfl | rfl : w = 0x00E0 ∨ w = 0x00EE := by simpa [canonicalFamily0] using h
    · exact hn (.inl rfl)
    · exact hn (.inr rfl)
  · rw [canonicalFamily8_iff] at h; omega
  · rw [canonicalFamilyE_iff, opKK_toNat] at h; rw [opN_val] at hn; omega
  · rw [canonicalFamilyF_iff] at h; exact hk h

/-- A word that passes the check is the encoding of the instruction it decodes to: the check fixes the bits that the dispatch
does not examine. -/
theorem encode_of_canonicalWord_of_decodeWord {w : Word} {i : Instr} (h : canonicalWord w = true)
    (hd : decodeWord w = .ok i) : encode i = w := by
  have hag : w &&& examinedMask i = encode i &&& examinedMask i := agreesOnExaminedBits_of_decodeWord hd
  rw [canonicalWord, ushiftRight_12_toNat] at h
  cases i
  case cls | ret =>
    obtain ⟨hf, hn⟩ := (and_F00F_eq_family0_iff w _ (by decide)).1 hag
    obtain rfl | rfl : w = 0x00E0 ∨ w = 0x00EE := by simpa [hf, canonicalFamily0] using h
    · revert hn; decide
    · revert hn; decide
  case seReg | sneReg =>
    obtain ⟨hf, hx, hy⟩ := (and_FFF0_eq_wordXYN_iff w _ _ _ _).1 hag
    have hn : (opN w).val = 0 := by simpa [hf, canonicalXY_iff] using h
    exact ((eq_wordXYN_iff w _ _ _ _).2 ⟨hf, hx, hy, Fin.ext hn⟩).symm
  case skp | sknp =>
    obtain ⟨hf, hx, hn⟩ := (and_FF0F_eq_wordXKK_iff w _ _ _).1 hag
    have hk : (opKK w).toNat = 0x9E ∨ (opKK w).toNat = 0xA1 := by simpa [hf, canonicalFamilyE_iff] using h
    refine ((eq_wordXKK_iff w _ _ _).2 ⟨hf, hx, BitVec.eq_of_toNat_eq ?_⟩).symm
    rw [opN_val] at hn
    rw [opKK_toNat] at hk ⊢
    simp only [BitVec.ofNat_eq_ofNat, BitVec.toNat_ofNat] at hn ⊢
    omega
  all_goals exact ((and_FFFF_eq_iff w _).1 hag).symm

end Sys2Proof

namespace Sys2Proof.Proofs

open Sys2Proof.Machine Sys2Proof.Claims

/-- Settles O2: the two directions, each by the instruction or the dispatch. -/
theorem wordDecodesIffItsExaminedBitsAgree : Obligations.WordDecodesIffItsExaminedBitsAgree := fun _ _ =>
  ⟨agreesOnExaminedBits_of_decodeWord, decodeWord_of_agreesOnExaminedBits⟩

/-- Settles O1: the two bytes join to the canonical word, which agrees with itself on the examined bits. -/
theorem encodedInstructionDecodesBack : Obligations.EncodedInstructionDecodesBack := by
  intro i rest
  simp [encodeBytes, decodeBytes]

/-- Settles O3: the decoder rejects a word in one of its four secondary tables, on the fields R78 lists. -/
theorem rejectedWordsAreTheUnmappedOnes : Obligations.RejectedWordsAreTheUnmappedOnes := decodeWord_error_iff

/-- Settles O4: every encoding passes the check, and a word that passes is mapped, so it decodes to an instruction, whose
encoding it is. -/
theorem canonicalWordsAreTheEncodings : Obligations.CanonicalWordsAreTheEncodings := by
  intro w
  refine ⟨fun h => ?_, fun ⟨i, hi⟩ => hi ▸ canonicalWord_encode i⟩
  cases hd : decodeWord w with
  | error r => exact absurd ((decodeWord_error_iff w).1 ⟨r, hd⟩) (not_unmappedWord_of_canonicalWord h)
  | ok i => exact ⟨i, encode_of_canonicalWord_of_decodeWord h hd⟩

/-- Settles O5: the decoder computes, word by word. -/
theorem writtenWordsDecodeAsTheSpecSays : Obligations.WrittenWordsDecodeAsTheSpecSays := by
  unfold Obligations.WrittenWordsDecodeAsTheSpecSays
  decide

end Sys2Proof.Proofs
end

section
/-! PROOFS. What each handler can change at all, said once as the fields it may write; from it the statements of what no
instruction does (10_state.md, 20_memory.md section 6, 42_register_alu.md R107). -/

namespace Sys2Proof.Machine

/-- The fields an instruction may write, taken from `t`, and every other field from `s` (10_state.md R21-R38). -/
def footprint (i : Instr) (s t : State) : State :=
  match i with
  | .cls => { s with fb := t.fb }
  | .ret => { s with pc := t.pc, sp := t.sp }
  | .call _ => { s with pc := t.pc, sp := t.sp, stack := t.stack }
  | .jp _ | .jpV0 _ | .seByte _ _ | .sneByte _ _ | .seReg _ _ | .sneReg _ _ | .skp _ | .sknp _ => { s with pc := t.pc }
  | .ldByte _ _ | .addByte _ _ | .ldReg _ _ | .orReg _ _ | .andReg _ _ | .xorReg _ _ | .addReg _ _ | .sub _ _ | .shr _ _
  | .subn _ _ | .shl _ _ | .ldVxDT _ | .ldVxMem _ => { s with V := t.V }
  | .rnd _ _ => { s with V := t.V, drawCount := t.drawCount }
  | .ldI _ | .addI _ | .ldF _ => { s with I := t.I }
  | .drw _ _ _ => { s with V := t.V, fb := t.fb }
  | .ldVxK _ => { s with V := t.V, pc := t.pc }
  | .ldDTVx _ => { s with DT := t.DT }
  | .ldSTVx _ => { s with ST := t.ST }
  | .ldB _ | .ldMemVx _ => { s with mem := t.mem }

variable {i : Instr} {s t : State}

/-- A handler changes nothing outside its footprint. -/
theorem exec_footprint (h : exec i s = .next t) : t = footprint i s t := by
  cases i
  case ret => obtain ⟨-, rfl⟩ := (execRet_next_iff s t).1 h; rfl
  case call nnn => obtain ⟨-, rfl⟩ := (execCall_next_iff s t nnn).1 h; rfl
  case seByte | sneByte | seReg | sneReg => cases h; simp only [State.skipIf_eq]; rfl
  case skp x => obtain ⟨k, -, rfl⟩ := (execSkp_next_iff s t x).1 h; simp only [State.skipIf_eq]; rfl
  case sknp x => obtain ⟨k, -, rfl⟩ := (execSknp_next_iff s t x).1 h; simp only [State.skipIf_eq]; rfl
  case ldVxK x =>
    obtain ⟨k, -, rfl⟩ | ⟨-, rfl⟩ := (execLdVxK_next_iff s t x).1 h
    · rfl
    · rfl
  case addI x => obtain ⟨-, rfl⟩ := (execAddI_next_iff s t x).1 h; rfl
  case drw x y n => obtain ⟨-, rfl⟩ := (execDrw_next_iff s t x y n).1 h; rfl
  case ldB x => obtain ⟨-, rfl⟩ := (execLdB_next_iff s t x).1 h; exact State.pokeList_eq ..
  case ldMemVx x => obtain ⟨-, rfl⟩ := (execLdMemVx_next_iff s t x).1 h; exact State.pokeList_eq ..
  case ldVxMem x => obtain ⟨-, rfl⟩ := (execLdVxMem_next_iff s t x).1 h; exact State.writeVs_eq ..
  all_goals cases h; rfl

/-! ## The footprints field by field -/

theorem exec_drawCount_eq (h : exec i s = .next t) : t.drawCount = s.drawCount ∨ ∃ x kk, i = .rnd x kk := by
  have hfoot := congrArg State.drawCount (exec_footprint h)
  cases i
  case rnd x kk => exact .inr ⟨x, kk, rfl⟩
  all_goals exact .inl hfoot

theorem exec_I_eq (h : exec i s = .next t) :
    t.I = s.I ∨ (∃ nnn, i = .ldI nnn) ∨ (∃ x, i = .addI x) ∨ ∃ x, i = .ldF x := by
  have hfoot := congrArg (·.I) (exec_footprint h)
  cases i
  case ldI nnn => exact .inr (.inl ⟨nnn, rfl⟩)
  case addI x => exact .inr (.inr (.inl ⟨x, rfl⟩))
  case ldF x => exact .inr (.inr (.inr ⟨x, rfl⟩))
  all_goals exact .inl hfoot

theorem exec_sp_eq (h : exec i s = .next t) : t.sp = s.sp ∨ i = .ret ∨ ∃ nnn, i = .call nnn := by
  have hfoot := congrArg (·.sp) (exec_footprint h)
  cases i
  case ret => exact .inr (.inl rfl)
  case call nnn => exact .inr (.inr ⟨nnn, rfl⟩)
  all_goals exact .inl hfoot

theorem exec_stack_eq (h : exec i s = .next t) : t.stack = s.stack ∨ ∃ nnn, i = .call nnn := by
  have hfoot := congrArg (·.stack) (exec_footprint h)
  cases i
  case call nnn => exact .inr ⟨nnn, rfl⟩
  all_goals exact .inl hfoot

theorem exec_DT_eq (h : exec i s = .next t) : t.DT = s.DT ∨ ∃ x, i = .ldDTVx x := by
  have hfoot := congrArg (·.DT) (exec_footprint h)
  cases i
  case ldDTVx x => exact .inr ⟨x, rfl⟩
  all_goals exact .inl hfoot

theorem exec_ST_eq (h : exec i s = .next t) : t.ST = s.ST ∨ ∃ x, i = .ldSTVx x := by
  have hfoot := congrArg (·.ST) (exec_footprint h)
  cases i
  case ldSTVx x => exact .inr ⟨x, rfl⟩
  all_goals exact .inl hfoot

theorem exec_fb_eq (h : exec i s = .next t) : t.fb = s.fb ∨ i = .cls ∨ ∃ x y n, i = .drw x y n := by
  have hfoot := congrArg (·.fb) (exec_footprint h)
  cases i
  case cls => exact .inr (.inl rfl)
  case drw x y n => exact .inr (.inr ⟨x, y, n, rfl⟩)
  all_goals exact .inl hfoot

theorem exec_mem_eq (h : exec i s = .next t) : t.mem = s.mem ∨ (∃ x, i = .ldB x) ∨ ∃ x, i = .ldMemVx x := by
  have hfoot := congrArg (·.mem) (exec_footprint h)
  cases i
  case ldB x => exact .inr (.inl ⟨x, rfl⟩)
  case ldMemVx x => exact .inr (.inr ⟨x, rfl⟩)
  all_goals exact .inl hfoot

end Sys2Proof.Machine

namespace Sys2Proof.Proofs

open Sys2Proof.Machine Sys2Proof.Claims

/-- Settles O39: only the footprint of Cxkk has the draw counter. -/
theorem onlyRandomTakesADraw : Obligations.OnlyRandomTakesADraw := fun _ _ _ h hi =>
  (exec_drawCount_eq h).resolve_right fun ⟨x, kk, e⟩ => hi x kk e

/-- Settles O55: the footprints, field by field. -/
theorem otherStateChangesOnlyWhereTheSpecSays : Obligations.OtherStateChangesOnlyWhereTheSpecSays := fun _ _ _ h =>
  ⟨(exec_I_eq h).resolve_left, (exec_sp_eq h).resolve_left, (exec_stack_eq h).resolve_left, (exec_DT_eq h).resolve_left,
    (exec_ST_eq h).resolve_left, (exec_fb_eq h).resolve_left, exec_keeps_key_curOp_cfg h⟩

/-- Settles O54: the two stores have memory in their footprint, and neither writes outside its span. -/
theorem onlyStoresChangeMemory : Obligations.OnlyStoresChangeMemory := by
  intro i s t a h hne
  rcases exec_mem_eq h with hmem | ⟨x, rfl⟩ | ⟨x, rfl⟩
  · obtain ⟨-, -, hcfg⟩ := exec_keeps_key_curOp_cfg h
    exact absurd (State.peek_congr hmem hcfg a) hne
  · obtain ⟨-, rfl⟩ := (execLdB_next_iff s t x).1 h
    have hin : ¬ (a < s.I.toNat ∨ s.I.toNat + 3 ≤ a) := fun hout => hne (s.peek_pokeList_outside hout)
    exact .inl ⟨x, rfl, by omega⟩
  · obtain ⟨-, rfl⟩ := (execLdMemVx_next_iff s t x).1 h
    have hin : ¬ (a < s.I.toNat ∨ s.I.toNat + (x.val + 1) ≤ a) := fun hout =>
      hne (s.peek_pokeList_outside (by rwa [State.readVs_length s 0 _ (by omega)]))
    exact .inr ⟨x, rfl, by omega⟩

/-- A skip leaves `pc` or adds 2 to it. -/
theorem skipIf_pc_eq (s : State) (c : Bool) (h : (s.skipIf c).pc ≠ s.pc) : (s.skipIf c).pc = s.pc + 2 := by
  cases c
  · exact absurd rfl h
  · rfl

/-- Settles O56: by the instruction; those not named have no `pc` in their footprint. -/
theorem pcChangesOnlyInTheListedWays : Obligations.PcChangesOnlyInTheListedWays := by
  intro i s t h hne
  have hfoot := congrArg (·.pc) (exec_footprint h)
  cases i
  case seByte x kk => cases h; exact .inl ⟨skipIf_pc_eq s _ hne, .inl ⟨x, kk, .inl rfl⟩⟩
  case sneByte x kk => cases h; exact .inl ⟨skipIf_pc_eq s _ hne, .inl ⟨x, kk, .inr rfl⟩⟩
  case seReg x y => cases h; exact .inl ⟨skipIf_pc_eq s _ hne, .inr (.inl ⟨x, y, .inl rfl⟩)⟩
  case sneReg x y => cases h; exact .inl ⟨skipIf_pc_eq s _ hne, .inr (.inl ⟨x, y, .inr rfl⟩)⟩
  case skp x =>
    obtain ⟨k, -, rfl⟩ := (execSkp_next_iff s t x).1 h
    exact .inl ⟨skipIf_pc_eq s _ hne, .inr (.inr ⟨x, .inl rfl⟩)⟩
  case sknp x =>
    obtain ⟨k, -, rfl⟩ := (execSknp_next_iff s t x).1 h
    exact .inl ⟨skipIf_pc_eq s _ hne, .inr (.inr ⟨x, .inr rfl⟩)⟩
  case jp nnn => cases h; exact .inr (.inl ⟨nnn, .inl rfl, zext16_toNat nnn⟩)
  case call nnn =>
    obtain ⟨-, rfl⟩ := (execCall_next_iff s t nnn).1 h
    exact .inr (.inl ⟨nnn, .inr rfl, zext16_toNat nnn⟩)
  case jpV0 nnn => cases h; exact .inr (.inr (.inl ⟨nnn, rfl, toNat_byte_add_zext16 (s.readV 0) nnn⟩))
  case ret =>
    obtain ⟨hsp, rfl⟩ := (execRet_next_iff s t).1 h
    exact .inr (.inr (.inr (.inl ⟨rfl, ⟨s.sp.val - 1, by omega⟩, by simp; omega, rfl⟩)))
  case ldVxK x =>
    obtain ⟨k, -, rfl⟩ | ⟨hnone, rfl⟩ := (execLdVxK_next_iff s t x).1 h
    · exact absurd rfl hne
    · exact .inr (.inr (.inr (.inr ⟨x, rfl, rfl, (State.leastKey_none_iff s).1 hnone⟩)))
  all_goals exact absurd hfoot hne

end Sys2Proof.Proofs
end

section
/-! PROOFS. The cycle, path by path (30_encoding.md R73-R77, 60_exceptions.md R127-R136), in the terms the statements use:
`wordAt`, `fetched` and `timersAfter`. -/

namespace Sys2Proof.Proofs

open Sys2Proof.Machine Sys2Proof.Claims

variable {s t : State} {i : Instr} {f : Fault}

/-! ## The advance and the timer step -/

/-- From a `pc` that can be fetched the advance does not wrap. -/
theorem fetched_pc_toNat (hp : s.pc.toNat ≤ 0xFFE) : (fetched s).pc.toNat = s.pc.toNat + 2 :=
  BitVec.toNat_add_of_lt (by simp; omega)

theorem countDown_eq_countedDown (v : Byte) : countDown v = countedDown v := by
  have := v.isLt
  apply BitVec.eq_of_toNat_eq
  rw [countDown_toNat, countedDown, BitVec.toNat_ofNat]; omega

/-- The model's timer step is the one the statements spell (R76). -/
theorem timersAfter_eq_timerStep (t : State) : timersAfter t = t.timerStep := by
  simp only [timersAfter, State.timerStep, State.timerTick, countDown_eq_countedDown]

/-! ## The four paths of a cycle -/

theorem cycle_of_unmapped {r : Reject} (hp : s.pc.toNat ≤ 0xFFE) (hd : decodeWord (wordAt s) = .error r) :
    cycle s = ⟨.returned (.invalidOpcode (wordAt s)), timersAfter (fetched s)⟩ := by
  rw [timersAfter_eq_timerStep]
  exact (cycle_of_fetch s hp).trans (runWord_of_unmapped (fetched s) hd)

theorem cycle_of_exec_next (hp : s.pc.toNat ≤ 0xFFE) (hd : decodeWord (wordAt s) = .ok i)
    (h : exec i (fetched s) = .next t) : cycle s = ⟨.returned .ok, timersAfter t⟩ := by
  rw [timersAfter_eq_timerStep]
  exact (cycle_of_fetch s hp).trans (runWord_of_next (fetched s) t hd h)

/-- The ways a cycle can go: the fetch fails; the word is unmapped; the handler completes; the handler fails. -/
theorem cycle_cases (s : State) :
    (0xFFE < s.pc.toNat ∧ cycle s = ⟨.returned (.fatal (.memoryOutOfBounds s.pc.toNat)), s⟩) ∨
    (s.pc.toNat ≤ 0xFFE ∧ ∃ r, decodeWord (wordAt s) = .error r ∧
      cycle s = ⟨.returned (.invalidOpcode (wordAt s)), timersAfter (fetched s)⟩) ∨
    (s.pc.toNat ≤ 0xFFE ∧ ∃ i t, decodeWord (wordAt s) = .ok i ∧ exec i (fetched s) = .next t ∧
      cycle s = ⟨.returned .ok, timersAfter t⟩) ∨
    (s.pc.toNat ≤ 0xFFE ∧ ∃ i f, decodeWord (wordAt s) = .ok i ∧ exec i (fetched s) = .fault f ∧
      cycle s = ⟨.returned (.fatal f), fetched s⟩) := by
  rcases Nat.lt_or_ge 0xFFE s.pc.toNat with hp | hp
  · exact .inl ⟨hp, cycle_of_fetch_error s hp⟩
  · cases hd : decodeWord (wordAt s) with
    | error r => exact .inr (.inl ⟨hp, r, rfl, cycle_of_unmapped hp hd⟩)
    | ok i =>
      cases he : exec i (fetched s) with
      | next t => exact .inr (.inr (.inl ⟨hp, i, t, rfl, he, cycle_of_exec_next hp hd he⟩))
      | fault f => exact .inr (.inr (.inr ⟨hp, i, f, rfl, he, cycle_of_exec_fault hp hd he⟩))
      | refused r => exact absurd he (exec_not_refused _ _ _)

/-! ## The step -/

theorem step_of_cycle_eq {o : CallOutcome} (h : cycle s = ⟨.returned o, t⟩) (ho : ∀ f, o ≠ .fatal f) : step s = .next t := by
  rw [step, h]
  cases o with
  | fatal f => exact absurd rfl (ho f)
  | ok | invalidOpcode | romTooLarge => rfl

theorem step_fault_iff_reply : step s = .fault f ↔ (cycle s).reply = .returned (.fatal f) := by
  rw [step, CallResult.asOutcome]
  split <;> simp_all

theorem step_refused_iff_reply {r : Refusal} : step s = .refused r ↔ (cycle s).reply = .refused r := by
  rw [step, CallResult.asOutcome]
  split <;> simp_all

/-- A step that answers a next state answers the one the cycle leaves. -/
theorem eq_cycle_state_of_step (h : step s = .next t) : t = (cycle s).state := by
  rw [step, CallResult.asOutcome] at h
  split at h <;> cases h <;> rfl

/-- A step faults exactly when the fetch does or the handler of the decoded instruction does. -/
theorem step_fault_iff (s : State) (f : Fault) : step s = .fault f ↔
    (0xFFE < s.pc.toNat ∧ f = .memoryOutOfBounds s.pc.toNat) ∨
    (s.pc.toNat ≤ 0xFFE ∧ ∃ i, decodeWord (wordAt s) = .ok i ∧ exec i (fetched s) = .fault f) := by
  rw [step_fault_iff_reply]
  constructor
  · intro h
    rcases cycle_cases s with ⟨hp, hc⟩ | ⟨-, r, -, hc⟩ | ⟨-, i, t, -, -, hc⟩ | ⟨hp, i, f', hd, he, hc⟩ <;>
      rw [hc] at h <;> cases h
    · exact .inl ⟨hp, rfl⟩
    · exact .inr ⟨hp, i, hd, he⟩
  · rintro (⟨hp, rfl⟩ | ⟨hp, i, hd, he⟩)
    · rw [cycle_of_fetch_error s hp]
    · rw [cycle_of_exec_fault hp hd he]

/-- A handler's own check fails exactly where the statements say (R129, R130, R132). -/
theorem exec_fault_iff (i : Instr) (s : State) (f : Fault) : exec i s = .fault f ↔ HandlerRaises i s f := by
  cases i
  case ret => simp [execRet_fault_iff, HandlerRaises]
  case call nnn => simp [execCall_fault_iff, HandlerRaises]
  case addI x => simp [execAddI_fault_iff, HandlerRaises]
  case ldB x => simp [execLdB_fault_iff, HandlerRaises]
  case ldMemVx x => simp [execLdMemVx_fault_iff, HandlerRaises]
  case ldVxMem x => simp [execLdVxMem_fault_iff, HandlerRaises]
  case drw x y n => simp [execDrw_fault_iff, HandlerRaises, and_assoc]
  case skp x => simp [execSkp_fault_iff, HandlerRaises]
  case sknp x => simp [execSknp_fault_iff, HandlerRaises]
  case ldVxK x =>
    simp only [exec, execLdVxK, HandlerRaises]
    split <;> simp
  all_goals exact ⟨nofun, by simp [HandlerRaises]⟩

/-! ## The statements -/

/-- Settles O6: the two bytes decode as the word they join to, and the step is the cycle's on each answer of the handler. -/
theorem stepRunsTheDecodedInstruction : Obligations.StepRunsTheDecodedInstruction := by
  intro s i hp hb
  have hd : decodeWord (wordAt s) = .ok i := by
    rw [decodeBytes] at hb
    split at hb
    · rename_i j hj; cases hb; exact hj
    · cases hb
  cases he : exec i (fetched s) with
  | next t => exact step_of_cycle_eq (cycle_of_exec_next hp hd he) nofun
  | fault f => exact (step_fault_iff s f).2 (.inr ⟨hp, i, hd, he⟩)
  | refused r => exact absurd he (exec_not_refused _ _ _)

/-- Settles O7: the paths of `cycle_cases`, each under its own condition. -/
theorem cycleFollowsItsFiveSteps : Obligations.CycleFollowsItsFiveSteps := by
  intro s
  refine ⟨cycle_of_fetch_error s, fun hp r hd => cycle_of_unmapped hp hd, fun hp i hd => ?_⟩
  cases he : exec i (fetched s) with
  | next t => exact .inl ⟨t, rfl, cycle_of_exec_next hp hd he⟩
  | fault f => exact .inr ⟨f, rfl, cycle_of_exec_fault hp hd he⟩
  | refused r => exact absurd he (exec_not_refused _ _ _)

/-- Settles O8: an unmapped word is one the decoder rejects, and the state left is the timer step of the advanced one. -/
theorem unmappedWordIsACompletedNoOp : Obligations.UnmappedWordIsACompletedNoOp := by
  intro s hp hw
  obtain ⟨r, hd⟩ := (decodeWord_error_iff _).2 hw
  have hc := cycle_of_unmapped hp hd
  refine ⟨_, step_of_cycle_eq hc nofun, hc, ?_⟩
  rw [timersAfter_eq_timerStep, State.timerStep_DT_toNat, State.timerStep_ST_toNat]
  refine ⟨?frame, State.timerStep_curOp _, ?pc, ?DT, ?ST⟩
  case frame => rw [State.timerStep_eq]; rfl
  case pc => rw [State.timerStep_pc]; exact fetched_pc_toNat hp
  case DT => change s.DT.toNat - (if s.cfg.timerCoupled = true then 1 else 0) = _; split <;> rfl
  case ST => change s.ST.toNat - (if s.cfg.timerCoupled = true then 1 else 0) = _; split <;> rfl

/-- Settles O9: a fatal outcome is that of the fetch or that of the handler, and the cycle leaves a state for each. -/
theorem fatalOutcomeLeavesOnlyFetchAndAdvance : Obligations.FatalOutcomeLeavesOnlyFetchAndAdvance := by
  intro s f h
  have hstep := step_fault_iff_reply.2 h
  refine ⟨hstep, ?_⟩
  rcases (step_fault_iff s f).1 hstep with ⟨hp, -⟩ | ⟨hp, i, hd, he⟩
  · exact ⟨fun hle => by omega, fun _ => by rw [cycle_of_fetch_error s hp]⟩
  · exact ⟨fun _ => by rw [cycle_of_exec_fault hp hd he]; rfl, fun hgt => by omega⟩

/-- Settles O10: the step faults by its fetch or by its handler, and the handlers fault where `HandlerRaises` says. -/
theorem stepFaultsExactlyWhereTheSpecSays : Obligations.StepFaultsExactlyWhereTheSpecSays := by
  intro s f
  simp only [step_fault_iff, exec_fault_iff]

/-- Settles O11: no path of a cycle is a refusal. -/
theorem stepNeverRefuses : Obligations.StepNeverRefuses := by
  intro s r h
  rw [step_refused_iff_reply] at h
  rcases cycle_cases s with ⟨-, hc⟩ | ⟨-, _, -, hc⟩ | ⟨-, _, _, -, -, hc⟩ | ⟨-, _, _, -, -, hc⟩ <;>
    rw [hc] at h <;> cases h

/-- Settles O12: the timer step counts from what the handler left, and of the handlers only Fx15 and Fx18 write a timer. -/
theorem completedCycleCountsTimersOnce : Obligations.CompletedCycleCountsTimersOnce := by
  intro s t h
  obtain ⟨-, ⟨⟨r, hd⟩, rfl⟩ | ⟨i, u, hd, he, rfl⟩⟩ := step_next_cases s t h <;> change decodeWord (wordAt s) = _ at hd
  · rw [State.timerStep_DT_toNat, State.timerStep_ST_toNat, hd]
    exact ⟨rfl, rfl⟩
  · obtain ⟨-, -, hcfg⟩ := exec_keeps_key_curOp_cfg he
    have hfoot := exec_footprint he
    rw [State.timerStep_DT_toNat, State.timerStep_ST_toNat, hd, hcfg]
    refine ⟨congrArg (· - _) ?DT, congrArg (· - _) ?ST⟩
    case DT =>
      cases i
      case ldDTVx x => cases he; rfl
      all_goals exact congrArg (·.DT.toNat) hfoot
    case ST =>
      cases i
      case ldSTVx x => cases he; rfl
      all_goals exact congrArg (·.ST.toNat) hfoot

/-- Settles O16: the handler puts `pc` back where it was. -/
theorem selfJumpStaysInPlace : Obligations.SelfJumpStaysInPlace := by
  intro s nnn hp hw hself
  have hd : decodeWord (wordAt s) = .ok (.jp nnn) := by rw [hw, decodeWord_encode]
  have hpc : zext16 nnn = s.pc := BitVec.eq_of_toNat_eq (by rw [zext16_toNat, hself])
  refine ⟨_, step_of_cycle_eq (cycle_of_exec_next hp hd rfl) nofun, ?_⟩
  rw [timersAfter_eq_timerStep, State.timerStep_eq, hpc]
  rfl

end Sys2Proof.Proofs
end

section
/-! PROOFS. Dead stack slots (10_state.md R38, D21). States alike but for slots at and above `sp` are one state with two
stacks, and what a handler does commutes with exchanging the stack. -/

namespace Sys2Proof.Machine

/-- The state with another call stack and the same `sp`. -/
def State.withStack (s : State) (stk : Vector Word 16) : State := { s with stack := stk }

variable {i : Instr} {s t : State} (stk : Vector Word 16)

/-! ## Operations commute with exchanging the stack -/

theorem State.skipIf_withStack (s : State) (c : Bool) : (s.withStack stk).skipIf c = (s.skipIf c).withStack stk := by
  cases c <;> rfl

theorem State.pokeList_withStack (s : State) (a : Nat) (bytes : List Byte) :
    (s.withStack stk).pokeList a bytes = (s.pokeList a bytes).withStack stk := by
  induction bytes generalizing s a with
  | nil => rfl
  | cons v rest ih => exact ih (s.poke a v) (a + 1)

theorem State.writeVs_withStack (s : State) (k : Nat) (bytes : List Byte) :
    (s.withStack stk).writeVs k bytes = (s.writeVs k bytes).withStack stk := by
  induction bytes generalizing s k with
  | nil => rfl
  | cons v rest ih =>
    simp only [State.writeVs]
    split
    · exact ih (s.writeV _ v) (k + 1)
    · rfl

theorem State.peekList_withStack (s : State) (a n : Nat) : (s.withStack stk).peekList a n = s.peekList a n :=
  State.peekList_congr (s := s) (t := s.withStack stk) (fun _ => rfl) a n

theorem State.readVs_withStack (s : State) (k n : Nat) : (s.withStack stk).readVs k n = s.readVs k n := by
  induction n generalizing k with
  | zero => rfl
  | succ n ih => simp only [State.readVs, ih]; rfl

theorem State.timerStep_withStack (s : State) : (s.withStack stk).timerStep = s.timerStep.withStack stk := by
  change (if s.cfg.timerCoupled = true then _ else _) = (if s.cfg.timerCoupled = true then _ else _ : State).withStack stk
  split <;> rfl

/-- A handler other than 00EE and 2nnn does with another stack what it did, and leaves that stack. -/
theorem exec_withStack (hret : i ≠ .ret) (hcall : ∀ nnn, i ≠ .call nnn) (h : exec i s = .next t) :
    exec i (s.withStack stk) = .next (t.withStack stk) := by
  cases i
  case ret => exact absurd rfl hret
  case call nnn => exact absurd rfl (hcall nnn)
  case seByte | sneByte | seReg | sneReg => cases h; exact congrArg Host.Outcome.next (s.skipIf_withStack stk _)
  case skp x =>
    obtain ⟨k, hk, rfl⟩ := (execSkp_next_iff s t x).1 h
    exact (execSkp_next_iff ..).2 ⟨k, hk, (s.skipIf_withStack stk _).symm⟩
  case sknp x =>
    obtain ⟨k, hk, rfl⟩ := (execSknp_next_iff s t x).1 h
    exact (execSknp_next_iff ..).2 ⟨k, hk, (s.skipIf_withStack stk _).symm⟩
  case ldVxK x =>
    refine (execLdVxK_next_iff ..).2 (((execLdVxK_next_iff s t x).1 h).imp ?_ ?_)
    · rintro ⟨k, hk, rfl⟩; exact ⟨k, hk, rfl⟩
    · rintro ⟨hnone, rfl⟩; exact ⟨hnone, rfl⟩
  case addI x => obtain ⟨hin, rfl⟩ := (execAddI_next_iff s t x).1 h; exact (execAddI_next_iff ..).2 ⟨hin, rfl⟩
  case drw x y n =>
    obtain ⟨hin, rfl⟩ := (execDrw_next_iff s t x y n).1 h
    exact (execDrw_next_iff ..).2 ⟨hin, by rw [State.peekList_withStack]; rfl⟩
  case ldB x =>
    obtain ⟨hin, rfl⟩ := (execLdB_next_iff s t x).1 h
    exact (execLdB_next_iff ..).2 ⟨hin, (State.pokeList_withStack ..).symm⟩
  case ldMemVx x =>
    obtain ⟨hin, rfl⟩ := (execLdMemVx_next_iff s t x).1 h
    exact (execLdMemVx_next_iff ..).2 ⟨hin, by rw [State.readVs_withStack]; exact (State.pokeList_withStack ..).symm⟩
  case ldVxMem x =>
    obtain ⟨hin, rfl⟩ := (execLdVxMem_next_iff s t x).1 h
    exact (execLdVxMem_next_iff ..).2 ⟨hin, by rw [State.peekList_withStack]; exact (State.writeVs_withStack ..).symm⟩
  all_goals cases h; rfl

end Sys2Proof.Machine

namespace Sys2Proof.Proofs

open Sys2Proof.Machine Sys2Proof.Claims

variable {s t : State} {i : Instr} {stk : Vector Word 16}

/-! ## States alike below `sp` -/

theorem agreeBelowSp_withStack (h : ∀ j : Fin 16, j.val < s.sp.val → stk[j] = s.stack[j]) :
    AgreeBelowSp s (s.withStack stk) := ⟨rfl, h⟩

theorem agreeBelowSp_refl (s : State) : AgreeBelowSp s s := ⟨rfl, fun _ _ => rfl⟩

theorem agreeBelowSp_iff : AgreeBelowSp s t ↔
    ∃ stk : Vector Word 16, t = s.withStack stk ∧ ∀ j : Fin 16, j.val < s.sp.val → stk[j] = s.stack[j] :=
  ⟨fun ⟨ht, hslots⟩ => ⟨t.stack, ht, hslots⟩, fun ⟨_, ht, hslots⟩ => ht ▸ agreeBelowSp_withStack hslots⟩

/-- The timer step keeps states alike. -/
theorem agreeBelowSp_timersAfter (h : AgreeBelowSp s t) : AgreeBelowSp (timersAfter s) (timersAfter t) := by
  obtain ⟨stk, rfl, hslots⟩ := agreeBelowSp_iff.1 h
  rw [timersAfter_eq_timerStep, timersAfter_eq_timerStep, State.timerStep_withStack]
  exact agreeBelowSp_withStack (by simpa using hslots)

/-- A handler's own check reads no stack slot. -/
theorem exec_fault_withStack {f : Fault} : exec i (s.withStack stk) = .fault f ↔ exec i s = .fault f := by
  rw [exec_fault_iff, exec_fault_iff]; rfl

/-- 00EE reads the slot below `sp`, where the stacks are equal. -/
theorem execRet_agreeBelowSp (hslots : ∀ j : Fin 16, j.val < s.sp.val → stk[j] = s.stack[j]) (h : exec .ret s = .next t) :
    ∃ u, exec .ret (s.withStack stk) = .next u ∧ AgreeBelowSp t u := by
  obtain ⟨hsp, rfl⟩ := (execRet_next_iff s t).1 h
  have hslot : stk[s.sp.val - 1] = s.stack[s.sp.val - 1] := hslots ⟨s.sp.val - 1, by omega⟩ (Nat.sub_one_lt hsp)
  refine ⟨State.withStack _ stk, (execRet_next_iff ..).2 ⟨hsp, ?_⟩,
    agreeBelowSp_withStack fun j hj => hslots j (Nat.lt_of_lt_of_le hj (Nat.sub_le ..))⟩
  rw [← hslot]; rfl

/-- 2nnn writes the slot at `sp`, in both stacks the same value. -/
theorem execCall_agreeBelowSp {nnn : Addr12} (hslots : ∀ j : Fin 16, j.val < s.sp.val → stk[j] = s.stack[j])
    (h : exec (.call nnn) s = .next t) : ∃ u, exec (.call nnn) (s.withStack stk) = .next u ∧ AgreeBelowSp t u := by
  obtain ⟨hsp, rfl⟩ := (execCall_next_iff s t nnn).1 h
  refine ⟨State.withStack _ (stk.set s.sp.val s.pc hsp), (execCall_next_iff ..).2 ⟨hsp, rfl⟩,
    agreeBelowSp_withStack fun j (hj : j.val < s.sp.val + 1) => ?_⟩
  by_cases htop : s.sp.val = j.val
  · simp [htop]
  · simpa [Vector.getElem_set, htop] using hslots j (by omega)

/-- A handler answers alike on states alike: no instruction but 00EE and 2nnn looks at the stack. -/
theorem exec_agreeBelowSp (h : AgreeBelowSp s t) : OutcomesAgree (exec i s) (exec i t) := by
  obtain ⟨stk, rfl, hslots⟩ := agreeBelowSp_iff.1 h
  cases he : exec i s with
  | refused r => exact absurd he (exec_not_refused s i r)
  | fault f => exact .inr ⟨f, rfl, exec_fault_withStack.2 he⟩
  | next u =>
    suffices hu : ∃ v, exec i (s.withStack stk) = .next v ∧ AgreeBelowSp u v by
      obtain ⟨v, hv, hagree⟩ := hu
      exact .inl ⟨u, v, rfl, hv, hagree⟩
    by_cases hret : i = .ret
    · subst hret; exact execRet_agreeBelowSp hslots he
    by_cases hcall : ∃ nnn, i = .call nnn
    · obtain ⟨nnn, rfl⟩ := hcall; exact execCall_agreeBelowSp hslots he
    · refine ⟨u.withStack stk, exec_withStack stk hret (fun nnn e => hcall ⟨nnn, e⟩) he, agreeBelowSp_withStack ?_⟩
      rwa [(exec_stack_eq he).resolve_right hcall, (exec_sp_eq he).resolve_right (not_or.2 ⟨hret, hcall⟩)]

/-! ## Host calls -/

/-- Two results of a host call that no getter and no later call tells apart. -/
def ResultsAgree (r q : CallResult) : Prop := r.reply = q.reply ∧ AgreeBelowSp r.state q.state

/-- A cycle goes the same path from states alike. -/
theorem cycle_agreeBelowSp (h : AgreeBelowSp s t) : ResultsAgree (cycle s) (cycle t) := by
  obtain ⟨stk, rfl, hslots⟩ := agreeBelowSp_iff.1 h
  have hfetched : AgreeBelowSp (fetched s) (fetched (s.withStack stk)) := agreeBelowSp_withStack hslots
  rcases cycle_cases s with ⟨hp, hc⟩ | ⟨hp, r, hd, hc⟩ | ⟨hp, i, u, hd, he, hc⟩ | ⟨hp, i, f, hd, he, hc⟩
  · rw [hc, cycle_of_fetch_error (s.withStack stk) hp]
    exact ⟨rfl, h⟩
  · rw [hc, cycle_of_unmapped (s := s.withStack stk) hp hd]
    exact ⟨rfl, agreeBelowSp_timersAfter hfetched⟩
  · rcases exec_agreeBelowSp (i := i) hfetched with ⟨u', v, hu', hv, hagree⟩ | ⟨f, hf, -⟩
    · obtain rfl : u' = u := by rw [he] at hu'; cases hu'; rfl
      rw [hc, cycle_of_exec_next (s := s.withStack stk) hp hd hv]
      exact ⟨rfl, agreeBelowSp_timersAfter hagree⟩
    · rw [he] at hf; cases hf
  · rw [hc, cycle_of_exec_fault (s := s.withStack stk) hp hd (exec_fault_withStack.2 he)]
    exact ⟨rfl, hfetched⟩

/-- Every host call gives alike results on states alike. -/
theorem hostCall_agreeBelowSp (c : HostCall) (h : AgreeBelowSp s t) : ResultsAgree (hostCall c s) (hostCall c t) := by
  cases c with
  | cycle => exact cycle_agreeBelowSp h
  | tickTimers => obtain ⟨stk, rfl, hslots⟩ := agreeBelowSp_iff.1 h; exact ⟨rfl, agreeBelowSp_withStack hslots⟩
  | load bytes =>
    obtain ⟨stk, rfl, hslots⟩ := agreeBelowSp_iff.1 h
    simp only [hostCall, hostLoad]
    split
    · exact ⟨rfl, h⟩
    · refine ⟨rfl, ?_⟩
      rw [State.pokeList_withStack]
      exact agreeBelowSp_withStack (by rwa [State.pokeList_eq])
  | reset => obtain ⟨stk, rfl, -⟩ := agreeBelowSp_iff.1 h; exact ⟨rfl, agreeBelowSp_refl _⟩
  | setKey index pressed =>
    obtain ⟨stk, rfl, hslots⟩ := agreeBelowSp_iff.1 h
    simp only [hostCall, hostSetKey]
    split
    · exact ⟨rfl, agreeBelowSp_withStack hslots⟩
    · exact ⟨rfl, h⟩

/-! ## The statements -/

/-- Settles O15: by induction on the calls; each gives alike results. -/
theorem hostRunsNeverSeeDeadStackSlots : Obligations.HostRunsNeverSeeDeadStackSlots := by
  intro calls
  induction calls with
  | nil => exact fun s t h => ⟨rfl, h⟩
  | cons c rest ih =>
    intro s t h
    obtain ⟨hreply, hstate⟩ := hostCall_agreeBelowSp c h
    obtain ⟨hreplies, hfinal⟩ := ih _ _ hstate
    exact ⟨congrArg₂ List.cons hreply hreplies, hfinal⟩

/-- Settles O14: the step is the cycle as an outcome, and no cycle is refused. -/
theorem deadStackSlotsAreUnobservable : Obligations.DeadStackSlotsAreUnobservable := by
  intro s t h
  obtain ⟨hreply, hstate⟩ := cycle_agreeBelowSp h
  cases hs : step s with
  | refused r => exact absurd hs (stepNeverRefuses s r)
  | fault f => exact .inr ⟨f, rfl, step_fault_iff_reply.2 (hreply ▸ step_fault_iff_reply.1 hs)⟩
  | next u =>
    cases ht : step t with
    | refused r => exact absurd ht (stepNeverRefuses t r)
    | fault f => rw [step_fault_iff_reply.2 (hreply.trans (step_fault_iff_reply.1 ht))] at hs; cases hs
    | next v => exact .inl ⟨u, v, rfl, rfl, eq_cycle_state_of_step hs ▸ eq_cycle_state_of_step ht ▸ hstate⟩

end Sys2Proof.Proofs
end

section
/-! PROOFS. The invariant (10_state.md R23, R27; 20_memory.md R43): every handler keeps each of its four parts on the state
after fetch and advance, so every cycle and every host call keeps it. -/

namespace Sys2Proof.Proofs

open Sys2Proof.Machine Sys2Proof.Claims

variable {s t : State} {i : Instr}

/-! ## What a handler keeps, part by part -/

/-- Only the two stores write memory, and their bounds check keeps them inside it. -/
theorem exec_keeps_memWf (hs : Memory.wf s.cfg s.mem) (h : exec i s = .next t) : Memory.wf t.cfg t.mem := by
  rcases exec_mem_eq h with hmem | ⟨x, rfl⟩ | ⟨x, rfl⟩
  · obtain ⟨-, -, hcfg⟩ := exec_keeps_key_curOp_cfg h
    rwa [hmem, hcfg]
  · obtain ⟨hin, rfl⟩ := (execLdB_next_iff s t x).1 h
    exact s.pokeList_wf _ _ hs (by rw [bcdDigits_length, memSize]; omega)
  · obtain ⟨hin, rfl⟩ := (execLdMemVx_next_iff s t x).1 h
    exact s.pokeList_wf _ _ hs (by rw [State.readVs_length s 0 _ (by omega), memSize]; omega)

/-- An index that fits 16 bits is written exactly (R22). -/
theorem writeI_I_toNat (s : State) {a : Nat} (h : a < 2 ^ 16) : (s.writeI a).I.toNat = a := Nat.mod_eq_of_lt h

/-- The glyph address of Fx29 is at most 0x1B0 + 5 * 255 (R110). -/
theorem glyphAddress_le (c : Config) (v : Byte) : c.fontBase.val + 5 * v.toNat ≤ 0x6AB := by
  have := c.fontBase.isLt
  omega

/-- `I` becomes a 12-bit address, a checked sum, or a glyph address (R23). -/
theorem exec_keeps_indexBound (hs : s.I.toNat ≤ 0xFFF) (h : exec i s = .next t) : t.I.toNat ≤ 0xFFF := by
  rcases exec_I_eq h with hI | ⟨nnn, rfl⟩ | ⟨x, rfl⟩ | ⟨x, rfl⟩
  · rwa [hI]
  · cases h; rw [writeI_I_toNat s (by omega)]; omega
  · obtain ⟨hin, rfl⟩ := (execAddI_next_iff s t x).1 h
    rw [writeI_I_toNat s (by omega)]; exact hin
  · have hglyph := glyphAddress_le s.cfg (s.readV x)
    cases h; rw [writeI_I_toNat s (by omega)]; omega

/-- From an advanced `pc` the ways of R25 lead no further than 0x10FE (R27). -/
theorem exec_keeps_pcBound (hlo : 2 ≤ s.pc.toNat) (hhi : s.pc.toNat ≤ 0x1000)
    (hstack : ∀ j : Fin 16, s.stack[j].toNat ≤ 0x1000) (h : exec i s = .next t) : t.pc.toNat ≤ 0x10FE := by
  by_cases hpc : t.pc = s.pc
  · rw [hpc]; omega
  · rcases pcChangesOnlyInTheListedWays i s t h hpc with
      ⟨he, -⟩ | ⟨nnn, -, he⟩ | ⟨nnn, -, he⟩ | ⟨-, j, -, he⟩ | ⟨x, -, he, -⟩
    · rw [he]; bv_omega
    · omega
    · omega
    · have := hstack j; rw [he]; omega
    · rw [he]; bv_omega

/-- 2nnn pushes the advanced `pc`; no other instruction writes a slot. -/
theorem exec_keeps_stackBound (hhi : s.pc.toNat ≤ 0x1000) (hs : ∀ j : Fin 16, s.stack[j].toNat ≤ 0x1000)
    (h : exec i s = .next t) (j : Fin 16) : t.stack[j].toNat ≤ 0x1000 := by
  rcases exec_stack_eq h with hstack | ⟨nnn, rfl⟩
  · rw [hstack]; exact hs j
  · obtain ⟨hsp, rfl⟩ := (execCall_next_iff s t nnn).1 h
    simp only [Fin.getElem_fin, Vector.getElem_set]
    split
    · exact hhi
    · exact hs j

/-- A handler keeps the invariant from an advanced `pc` of at most 0x1000. -/
theorem exec_keeps_inv (hs : s.Inv) (hlo : 2 ≤ s.pc.toNat) (hhi : s.pc.toNat ≤ 0x1000) (h : exec i s = .next t) : t.Inv :=
  ⟨exec_keeps_memWf hs.memWf h, exec_keeps_indexBound hs.indexBound h, exec_keeps_pcBound hlo hhi hs.stackBound h,
    exec_keeps_stackBound hhi hs.stackBound h⟩

/-! ## What a cycle and the other host calls keep -/

theorem fetched_inv (hs : s.Inv) (hp : s.pc.toNat ≤ 0xFFE) : (fetched s).Inv :=
  ⟨hs.memWf, hs.indexBound, by rw [fetched_pc_toNat hp]; omega, hs.stackBound⟩

theorem timersAfter_inv (hs : s.Inv) : (timersAfter s).Inv := by
  rw [timersAfter]
  split
  · exact ⟨hs.memWf, hs.indexBound, hs.pcBound, hs.stackBound⟩
  · exact hs

/-- A cycle keeps the invariant on each of its paths. -/
theorem cycle_keeps_inv (hs : s.Inv) : (cycle s).state.Inv := by
  rcases cycle_cases s with ⟨-, hc⟩ | ⟨hp, r, -, hc⟩ | ⟨hp, i, t, -, he, hc⟩ | ⟨hp, i, f, -, -, hc⟩ <;> rw [hc]
  · exact hs
  · exact timersAfter_inv (fetched_inv hs hp)
  · have hpc := fetched_pc_toNat hp
    exact timersAfter_inv (exec_keeps_inv (fetched_inv hs hp) (by omega) (by omega) he)
  · exact fetched_inv hs hp

theorem powerUp_inv (c : Config) : (State.powerUp c).Inv :=
  ⟨Memory.wf_nil c, Nat.zero_le _, by simp [State.powerUp], fun j => by simp [State.powerUp]⟩

theorem hostLoad_keeps_inv (bytes : List Byte) (hs : s.Inv) : (hostLoad bytes s).state.Inv := by
  rw [hostLoad]
  split
  · exact hs
  · rename_i hlen
    have hwf := s.pokeList_wf programStart bytes hs.memWf (by simp only [programStart, memSize, maxRom] at *; omega)
    rw [State.pokeList_eq] at hwf ⊢
    exact ⟨hwf, hs.indexBound, hs.pcBound, hs.stackBound⟩

/-! ## The statements -/

/-- Settles O20: call by call; a fatal cycle, a rejected load and a refused key included. -/
theorem hostCallKeepsTheInvariant : Obligations.HostCallKeepsTheInvariant := by
  intro c s hs
  cases c with
  | cycle => exact cycle_keeps_inv hs
  | tickTimers => exact ⟨hs.memWf, hs.indexBound, hs.pcBound, hs.stackBound⟩
  | load bytes => exact hostLoad_keeps_inv bytes hs
  | reset =>
    obtain ⟨hmem, hindex, hpc, hstack⟩ := powerUp_inv s.cfg
    exact ⟨hmem, hindex, hpc, hstack⟩
  | setKey index pressed =>
    simp only [hostCall, hostSetKey]
    split
    · exact ⟨hs.memWf, hs.indexBound, hs.pcBound, hs.stackBound⟩
    · exact hs

/-- Settles O19: the state a step answers is the one its cycle leaves. -/
theorem stepKeepsTheInvariant : Obligations.StepKeepsTheInvariant := fun _ _ hs h =>
  eq_cycle_state_of_step h ▸ cycle_keeps_inv hs

/-- Settles O18: memory lists nothing, and every field is at its reset value. -/
theorem powerUpMeetsTheInvariant : Obligations.PowerUpMeetsTheInvariant := ⟨powerUp_inv, powerUp_inv defaultConfig⟩

/-- Settles O21: no handler, no timer step and no other call writes the configuration. -/
theorem hostCallKeepsTheConfiguration : Obligations.HostCallKeepsTheConfiguration := by
  intro c s
  cases c with
  | cycle =>
    change (cycle s).state.cfg = s.cfg
    rcases cycle_cases s with ⟨-, hc⟩ | ⟨hp, r, -, hc⟩ | ⟨hp, i, t, -, he, hc⟩ | ⟨hp, i, f, -, -, hc⟩ <;> rw [hc]
    · rw [timersAfter_eq_timerStep, State.timerStep_cfg]; rfl
    · obtain ⟨-, -, hcfg⟩ := exec_keeps_key_curOp_cfg he
      rw [timersAfter_eq_timerStep, State.timerStep_cfg, hcfg]; rfl
    · rfl
  | tickTimers => rfl
  | load bytes => simp only [hostCall, hostLoad]; split <;> simp
  | reset => rfl
  | setKey index pressed => simp only [hostCall, hostSetKey]; split <;> rfl

end Sys2Proof.Proofs
end

section
/-! PROOFS. The host's entry points and getters (60_exceptions.md R144-R146, 20_memory.md R44, R50, 10_state.md R35), and the
run with no program (70_reset_and_hazards.md R156). -/

namespace Sys2Proof.Proofs

open Sys2Proof.Machine Sys2Proof.Claims

/-! ## Host calls and byte access -/

/-- Settles O23: the span stored from 0x200 on, or the length check. -/
theorem loadCopiesTheRomOrNothing : Obligations.LoadCopiesTheRomOrNothing := by
  intro bytes s
  refine ⟨fun hlen => ⟨s.pokeList programStart bytes, if_neg (Nat.not_lt_of_le hlen), State.pokeList_eq .., fun a => ?_⟩,
    fun hlen => if_pos hlen⟩
  rw [State.peek_pokeList]; rfl

/-- Settles O24: the index check, and the write of one key. -/
theorem setKeyWritesOneKey : Obligations.SetKeyWritesOneKey := by
  intro index pressed s
  refine ⟨fun hlt => ⟨s.writeKey ⟨index, hlt⟩ pressed, dif_pos hlt, rfl, fun k => ?_⟩, fun hge => dif_neg (by omega)⟩
  simp [State.readKey, Vector.getElem_set, eq_comm]

/-- Settles O27: read after write at the address and away from it, behind the bounds check of both. -/
theorem memoryReadsBackWhatWasWritten : Obligations.MemoryReadsBackWhatWasWritten := by
  intro s a v
  refine ⟨fun hin => ⟨s.poke a v, if_neg (by omega), ?_, rfl, fun b hb => ?_⟩, fun hout => ⟨if_pos hout, if_pos hout⟩⟩
  · rw [memRead_ok _ hin, State.peek_poke, if_pos rfl]
  · rw [memRead, memRead, State.peek_poke, if_neg hb]

/-! ## The framebuffer as a flat list -/

/-- In a concatenation of lists of one length `n`, item `x` of list `y` stands at `y * n + x`. -/
theorem getElem?_flatMap_of_length {α β : Type} {f : α → List β} {n x : Nat} (hx : x < n) (l : List α)
    (hf : ∀ a ∈ l, (f a).length = n) (y : Nat) : (l.flatMap f)[y * n + x]? = l[y]?.bind fun a => (f a)[x]? := by
  induction l generalizing y with
  | nil => simp
  | cons a rest ih =>
    obtain ⟨ha, hrest⟩ := List.forall_mem_cons.1 hf
    rw [List.flatMap_cons]
    cases y with
    | zero => rw [Nat.zero_mul, Nat.zero_add, List.getElem?_append_left (by omega)]; rfl
    | succ y =>
      rw [List.getElem?_append_right (by rw [ha, Nat.succ_mul]; omega), ha,
        show (y + 1) * n + x - n = y * n + x by rw [Nat.succ_mul]; omega, ih hrest]
      rfl

/-- Settles O26: 32 rows of 64 pixels, one after the other. -/
theorem framebufferSnapshotIsRowByRow : Obligations.FramebufferSnapshotIsRowByRow := by
  intro s
  have hrow : ∀ r ∈ s.fb.toList, r.toList.length = 64 := fun r _ => r.length_toList
  refine ⟨?_, fun x y => ?_⟩
  · rw [getFramebuffer, List.length_flatMap, List.map_congr_left hrow]; simp
  · rw [getFramebuffer, getElem?_flatMap_of_length x.isLt _ hrow]
    simp [State.pixel]

/-! ## A run with no program -/

theorem run_one (M : Host.Core) (s : M.State) : M.run 1 s = M.step s := by
  rw [Host.Core.run]
  cases M.step s <;> rfl

/-- A run that answers a state goes on with a step from it. -/
theorem run_succ_of_run {M : Host.Core} {k : Nat} {s t : M.State} (h : M.run k s = .next t) :
    M.run (k + 1) s = M.step t := by
  induction k generalizing s with
  | zero => cases h; exact run_one M _
  | succ k ih =>
    rw [Host.Core.run] at h ⊢
    cases hs : M.step s with
    | next u => rw [hs] at h; exact ih h
    | fault f => rw [hs] at h; cases h
    | refused r => rw [hs] at h; cases h

/-- The power-up state with another `pc`. -/
def powerUpAt (c : Config) (pc : Word) : State := { State.powerUp c with pc := pc }

/-- Above the font every byte is 0x00 at power-up: `FONT_BASE + 79` is at most 0x1FF (R152). -/
theorem peek_powerUpAt (c : Config) (pc : Word) {a : Nat} (ha : 0x200 ≤ a) : (powerUpAt c pc).peek a = 0 := by
  have := c.fontBase.isLt
  exact (State.peek_powerUp c a).trans (if_neg (by omega))

/-- One cycle with no program: 0x0000 runs as 00E0 on pixels that are off, the timers stay 0, and `pc` moves on. -/
theorem step_powerUpAt (c : Config) {pc : Word} (hlo : 0x200 ≤ pc.toNat) (hhi : pc.toNat ≤ 0xFFE) :
    step (powerUpAt c pc) = .next (powerUpAt c (pc + 2)) := by
  have hw : wordAt (powerUpAt c pc) = 0 := by
    change (powerUpAt c pc).peek pc.toNat ++ (powerUpAt c pc).peek (pc.toNat + 1) = (0 : Word)
    rw [peek_powerUpAt c pc hlo, peek_powerUpAt c pc (by omega : 0x200 ≤ pc.toNat + 1)]; rfl
  have hd : decodeWord (wordAt (powerUpAt c pc)) = .ok .cls := by rw [hw]; rfl
  rw [step_of_cycle_eq (cycle_of_exec_next (s := powerUpAt c pc) hhi hd rfl) nofun]
  rw [timersAfter, fetched, hw]
  split <;> rfl

/-- `k` cycles with no program, as long as the fetch stays inside memory. -/
theorem run_powerUp (c : Config) {k : Nat} (hk : k ≤ 1792) :
    Host.Core.run core k (State.powerUp c) = .next (powerUpAt c (BitVec.ofNat 16 (0x200 + 2 * k))) := by
  induction k with
  | zero => rfl
  | succ k ih =>
    have hpc : (BitVec.ofNat 16 (0x200 + 2 * k)).toNat = 0x200 + 2 * k := Nat.mod_eq_of_lt (by omega)
    have hnext : BitVec.ofNat 16 (0x200 + 2 * k) + 2 = BitVec.ofNat 16 (0x200 + 2 * (k + 1)) := (BitVec.ofNat_add ..).symm
    rw [run_succ_of_run (ih (by omega)), ← hnext]
    exact step_powerUpAt c (by omega) (by omega)

/-- Settles O17: 1792 cycles bring `pc` to 0x1000, where the fetch fails. -/
theorem runWithoutRomEndsAtTheTopOfMemory : Obligations.RunWithoutRomEndsAtTheTopOfMemory := by
  intro c
  refine ⟨fun k hk => ⟨_, run_powerUp c hk, rfl, Nat.mod_eq_of_lt (by omega)⟩, ?_⟩
  rw [run_succ_of_run (run_powerUp c (Nat.le_refl 1792))]
  exact step_of_fetch_error (powerUpAt c 0x1000) (show 0xFFE < (0x1000 : Word).toNat by decide)

end Sys2Proof.Proofs
end

section
/-! PROOFS. Single instructions: the draw (R105, R107), `I` (R108-R110), the register store and its load (R112, R113), the
sprite drawn twice or with no rows (R119, R120), keys and timers (R121-R126), and a call with its return (R86, R88). -/

namespace Sys2Proof.Proofs

open Sys2Proof.Machine Sys2Proof.Claims

/-! ## Control flow -/

/-- Settles O30: the slot the call wrote is the one the return pops. -/
theorem callThenReturnComesBack : Obligations.CallThenReturnComesBack := by
  intro s t u nnn h hstack hsp
  obtain ⟨hlt, rfl⟩ := (execCall_next_iff s t nnn).1 h
  have husp : u.sp.val = s.sp.val + 1 := congrArg Fin.val hsp
  refine ⟨_, (execRet_next_iff u _).2 ⟨by omega, rfl⟩, ?_, Fin.ext (by simp [husp])⟩
  simp [hstack, husp]

/-! ## Registers and index -/

/-- Settles O38: the handler is `rndWith` at the free draw. -/
theorem randomMasksOneFreeDraw : Obligations.RandomMasksOneFreeDraw := by
  intro s x kk
  have hread (draw : Byte) (r : Nibble) : (rndWith draw x kk s).readV r = if r = x then draw &&& kk else s.readV r :=
    s.readV_writeV x r (draw &&& kk)
  exact ⟨⟨_, rfl, rfl, rfl, hread _⟩, fun draw => ⟨rfl, hread draw⟩⟩

/-- Settles O40: neither address exceeds 16 bits. -/
theorem indexLoadsWriteTheirAddress : Obligations.IndexLoadsWriteTheirAddress := by
  intro s nnn x
  have hglyph := glyphAddress_le s.cfg (s.readV x)
  exact ⟨⟨_, rfl, rfl, writeI_I_toNat s (by omega)⟩, ⟨_, rfl, rfl, writeI_I_toNat s (by omega)⟩⟩

/-- Settles O41: the checked sum fits 16 bits. -/
theorem addToIndexIsExactOrFaults : Obligations.AddToIndexIsExactOrFaults := fun s x =>
  ⟨fun hin => ⟨_, (execAddI_next_iff s _ x).2 ⟨hin, rfl⟩, rfl, writeI_I_toNat s (by omega)⟩,
    fun hout => (execAddI_fault_iff s _ x).2 ⟨hout, rfl⟩⟩

/-- After Fx55 the byte at offset `k` is `Vk`, for `k` up to and including `x` (R112). -/
theorem peek_pokeList_readVs (s : State) (a : Nat) {x k : Nibble} (hk : k.val ≤ x.val) :
    (s.pokeList a (s.readVs 0 (x.val + 1))).peek (a + k.val) = s.readV k := by
  have hlen : k.val < (s.readVs 0 (x.val + 1)).length := by rw [State.readVs_length s 0 _ (by omega)]; omega
  have hget := s.readVs_getElem 0 (x.val + 1) k.val (by omega) (by omega)
  rw [s.peek_pokeList_offset a k.val _ hlen]
  rw [List.getElem?_eq_getElem hlen] at hget
  simpa using hget

/-- Settles O43: the stored span has `x + 1` bytes. -/
theorem registersAreStoredFromIndex : Obligations.RegistersAreStoredFromIndex := by
  intro s x
  refine ⟨fun hin => ⟨_, (execLdMemVx_next_iff s _ x).2 ⟨hin, rfl⟩, State.pokeList_eq .., fun k hk => ?_, fun a ha => ?_⟩,
    fun hout => (execLdMemVx_fault_iff s _ x).2 ⟨hout, rfl⟩⟩
  · exact peek_pokeList_readVs s _ hk
  · exact s.peek_pokeList_outside (by rw [State.readVs_length s 0 _ (by omega)]; omega)

/-- Settles O45: the load reads the bytes the store wrote, from the `I` the store left. -/
theorem storeThenLoadRestoresRegisters : Obligations.StoreThenLoadRestoresRegisters := by
  intro s t u x h hmem hcfg hI
  obtain ⟨hin, rfl⟩ := (execLdMemVx_next_iff s t x).1 h
  have hI : u.I = s.I := by rw [hI, State.pokeList_eq]
  refine ⟨_, (execLdVxMem_next_iff u _ x).2 ⟨by rwa [hI], rfl⟩, fun r => ?_⟩
  rw [State.readV_writeVs_peekList]
  by_cases hr : r.val ≤ x.val
  · rw [if_pos (by omega), if_pos hr, State.peek_congr hmem hcfg, hI, peek_pokeList_readVs s _ hr]
  · rw [if_neg (by omega), if_neg hr]

/-! ## The sprite -/

/-- Settles O48: no row names no pixel. -/
theorem drawOfNoRowsOnlyClearsFlag : Obligations.DrawOfNoRowsOnlyClearsFlag := fun s x y =>
  ⟨_, (execDrw_next_iff s _ x y 0).2 ⟨.inl rfl, rfl⟩, rfl, fun r => State.readV_drawSprite s _ _ _ r⟩

section SecondDraw

variable {s u : State} {x0 y0 : Nat} {bytes : List Byte}

/-- The pixel the second draw finds is the one the first draw left. -/
theorem pixel_of_fb_eq_drawSprite (hrows : bytes.length ≤ 32) (hfb : u.fb = (s.drawSprite x0 y0 bytes).fb) (px : Fin 64)
    (py : Fin 32) :
    u.pixel px py = if (px, py) ∈ spritePixels x0 y0 bytes then !s.pixel px py else s.pixel px py := by
  rw [← State.pixel_drawSprite s x0 y0 bytes hrows, State.pixel, State.pixel, hfb]

/-- Inverting the same pixels twice puts them back (R120). -/
theorem drawSprite_fb_of_fb_eq_drawSprite (hrows : bytes.length ≤ 32) (hfb : u.fb = (s.drawSprite x0 y0 bytes).fb) :
    (u.drawSprite x0 y0 bytes).fb = s.fb := by
  refine fb_ext fun ⟨px, py⟩ => ?_
  change (u.drawSprite x0 y0 bytes).pixel px py = s.pixel px py
  rw [State.pixel_drawSprite u x0 y0 bytes hrows, pixel_of_fb_eq_drawSprite hrows hfb]
  split <;> simp

/-- A draw on pixels that are off meets no collision. -/
theorem readV_drawSprite_of_off (hrows : bytes.length ≤ 32) (hoff : ∀ px py, s.pixel px py = false) :
    (s.drawSprite x0 y0 bytes).readV regVF = 0 := by
  have hne : ¬ (s.drawSprite x0 y0 bytes).readV regVF = 1 := by
    rw [State.readV_drawSprite_flag_eq_one_iff s _ _ _ hrows]; simp [hoff]
  rw [State.readV_drawSprite_regVF] at hne ⊢
  exact (flagOf_eq_zero_or_one _).resolve_right hne

/-- The second draw collides exactly when the sprite names a pixel, which the first draw has turned on. -/
theorem readV_drawSprite_second_eq_one_iff (hrows : bytes.length ≤ 32) (hfb : u.fb = (s.drawSprite x0 y0 bytes).fb)
    (hoff : ∀ px py, s.pixel px py = false) :
    (u.drawSprite x0 y0 bytes).readV regVF = 1 ↔ ∃ px py, (px, py) ∈ spritePixels x0 y0 bytes := by
  rw [State.readV_drawSprite_flag_eq_one_iff u _ _ _ hrows]
  simp [pixel_of_fb_eq_drawSprite hrows hfb, hoff]

end SecondDraw

/-- Settles O49: the second draw has the sprite and the place of the first. -/
theorem secondDrawRestoresThePixels : Obligations.SecondDrawRestoresThePixels := by
  intro s t u x y n h hfb hmem hcfg hI hx hy
  obtain ⟨hin, rfl⟩ := (execDrw_next_iff s t x y n).1 h
  have hrows : (s.peekList s.I.toNat n.val).length ≤ 32 := by rw [State.peekList_length]; omega
  have hbytes : u.peekList u.I.toNat n.val = s.peekList s.I.toNat n.val := by
    rw [hI]; exact State.peekList_congr (State.peek_congr hmem hcfg) ..
  refine ⟨_, (execDrw_next_iff u _ x y n).2 ⟨by rwa [hI], rfl⟩, ?_⟩
  rw [hx, hy, hbytes]
  refine ⟨drawSprite_fb_of_fb_eq_drawSprite hrows hfb, fun hoff => ⟨readV_drawSprite_of_off hrows hoff, ?_⟩⟩
  refine (readV_drawSprite_second_eq_one_iff hrows hfb hoff).trans ?_
  simp only [mem_spritePixels_iff_spriteCovers]

/-! ## Keys and timers -/

/-- Settles O50: the key a byte names, or its range check. -/
theorem keySkipsFollowTheKey : Obligations.KeySkipsFollowTheKey := by
  intro s x
  refine ⟨fun k hk => ⟨?_, ?_⟩,
    fun hout => ⟨(execSkp_fault_iff s _ x).2 ⟨hout, rfl⟩, (execSknp_fault_iff s _ x).2 ⟨hout, rfl⟩⟩⟩
  · exact onlyPc_of_skipIf ((execSkp_next_iff s _ x).2 ⟨k, hk, rfl⟩)
  · have hskip := onlyPc_of_skipIf ((execSknp_next_iff s _ x).2 ⟨k, hk, rfl⟩)
    simpa only [Bool.not_eq_true', ← Bool.not_eq_true, ite_not] using hskip

/-- Settles O51: one write each. -/
theorem timerMovesCopyOneValue : Obligations.TimerMovesCopyOneValue := fun _ _ =>
  ⟨onlyRegisters_of_writeV rfl, ⟨_, rfl, rfl, rfl⟩, ⟨_, rfl, rfl, rfl⟩⟩

/-- The word at `pc` depends on `pc` and the bytes of memory only. -/
theorem wordAt_congr {s t : State} (hpc : t.pc = s.pc) (hpeek : ∀ a, t.peek a = s.peek a) : wordAt t = wordAt s := by
  simp only [wordAt, hpc, hpeek]

/-- Settles O52: Fx0A takes back the 2 the advance added, and neither it nor the cycle writes memory. -/
theorem keyWaitTakesTheLeastKeyOrRepeats : Obligations.KeyWaitTakesTheLeastKeyOrRepeats := by
  intro s x
  have hwait (u : State) (hnone : ∀ k, u.readKey k = false) : exec (.ldVxK x) u = .next (u.writePc (u.pc - 2)) :=
    (execLdVxK_next_iff u _ x).2 (.inr ⟨(State.leastKey_none_iff u).2 hnone, rfl⟩)
  refine ⟨fun k hk hleast => ?least, fun hnone => ⟨_, hwait s hnone, rfl, rfl⟩, fun hnone hp hd => ?again⟩
  case least =>
    have hsome : s.leastKey = some k := (State.leastKey_some_iff s k).2 ⟨hk, hleast⟩
    exact onlyRegisters_of_writeV ((execLdVxK_next_iff s _ x).2 (.inl ⟨k, hsome, rfl⟩))
  case again =>
    refine ⟨_, step_of_cycle_eq (cycle_of_exec_next hp hd (hwait (fetched s) hnone)) nofun, ?_⟩
    rw [timersAfter_eq_timerStep]
    have hpc : ((fetched s).writePc ((fetched s).pc - 2)).timerStep.pc = s.pc :=
      (State.timerStep_pc _).trans (BitVec.add_sub_cancel ..)
    exact ⟨hpc, wordAt_congr hpc (State.peek_timerStep _)⟩

end Sys2Proof.Proofs
end
